-- ==== Sys2Proof/Word.lean ====
section
/-! DEFINITION. The word types of the TinyFilmFestival frame engine. -/

namespace Sys2Proof

/-- A 32-bit word: a command word, a response word, a word of animation memory and its
address, NOW and every timestamp, a duration (00_scope.md R7: TIME_W, DUR_W, ADDR_W). -/
abbrev Word := BitVec 32

/-- A frame number, frame count or frame index (00_scope.md R7: FRAME_W = 16). -/
abbrev Half := BitVec 16

/-- A frame vector: bit `i` is cell `i`, 1 = LED on (00_scope.md R11). -/
abbrev FrameVec := BitVec 96

/-- A cell by its linear index `i = y*12 + x` (00_scope.md R10). -/
abbrev Cell := Fin 96

end Sys2Proof
end

