-- ==== Sys2Proof/Config.lean ====
section
/-! DEFINITION. What one implementation of the block fixes, and the free values: the things the
spec leaves open. An `opaque` constant has no body, so nothing can be proved about its value. -/

namespace Sys2Proof

/-- A 90° or 270° rotation map: for each destination cell the source cell whose value it
takes, or none (00_scope.md R7; 42_canvas.md R181). -/
abbrev RotMap := Vector (Option Cell) 96

/-- The implementation parameters a step takes as arguments (00_scope.md R7). LAYERS is not
here: it is the number of tracks of `State.trk`; ANIM_READABLE is not here: it is the set of
words `State.mem` lists. -/
structure Params where
  /-- MAX_FRAMES, the capacity of each layer's timing RAM, in frames. -/
  maxFrames : Nat
  /-- ROT90_SRC. -/
  rot90Src : RotMap
  /-- ROT270_SRC. -/
  rot270Src : RotMap
  deriving DecidableEq, Repr

/-- The range of MAX_FRAMES (00_scope.md R7). -/
abbrev Params.inRange (p : Params) : Prop := 1 ≤ p.maxFrames ∧ p.maxFrames ≤ 65535

namespace Config

/-- The range of LAYERS (00_scope.md R7). -/
abbrev layersInRange (layers : Nat) : Prop := 1 ≤ layers ∧ layers ≤ 8

/-- LAYERS of the instance that `State.reset` describes. DESIGN CHOICE (log 3): the default
the spec names (00_scope.md R7). -/
def resetLayers : Nat := 5

/-- MAX_FRAMES of the instance that `State.reset` describes. DESIGN CHOICE (log 4): the value
of the spec's test vectors (95_test_vectors.md section 0); the parameter has no default. -/
def resetMaxFrames : Nat := 16

/-- FREE (log 5): the 90° map is OPEN (42_canvas.md R181, 91_not_in_source.md N1). -/
opaque rot90Src : RotMap

/-- FREE (log 5): the 270° map is OPEN (42_canvas.md R181, 91_not_in_source.md N1). -/
opaque rot270Src : RotMap

/-- FREE (log 6): what entry `k` of layer `L`'s timing RAM holds before any START writes it
(10_state.md R51: "unspecified"). -/
opaque timingPowerUp (L k : Nat) : Word

/-- FREE (log 7): the word that read number `n` of command number `c` returns when the host
writes the address while the command is in progress (20_memory.md R73: "a draw"). -/
opaque racingWord (c n : Nat) : Word

end Config
end Sys2Proof
end

