-- ==== Sys2Proof/Syntax.lean ====
section
/-! DEFINITION. The 26 commands of the block, one constructor per row of the opcode table
(30_encoding.md R85), with their operands (R82, R83), and the 128-bit transaction that carries
one. -/

namespace Sys2Proof

/-- Playback modes (10_state.md R22). -/
inductive Mode where
  | once | loop | boomerang | boomerangOnce
  deriving DecidableEq, Repr

/-- Canvas rotations (10_state.md R36). -/
inductive Rotation where
  | deg0 | deg90 | deg180 | deg270
  deriving DecidableEq, Repr

/-- The two ways an LED command names a cell (30_encoding.md R87): `(x, y)` when AM = 0, the
linear index when AM = 1. A value may be out of range for the grid: the command is then a no-op. -/
inductive CellAddr where
  | xy (x y : Nat)
  | linear (i : Nat)
  deriving DecidableEq, Repr

/-- The four command words of one transaction (30_encoding.md R80). -/
structure Command where
  c0 : Word
  c1 : Word
  c2 : Word
  c3 : Word
  deriving DecidableEq, Repr

/-- Why a decoder gives no instruction: the opcode is not in the table of 30_encoding.md R85
(the block treats it as a silent no-op, R94), or fewer than four words are there (R95). -/
inductive DecodeReject where
  | undefinedOpcode (op : Nat)
  | tooFewWords (n : Nat)
  deriving DecidableEq, Repr

/-- The commands. `ly` is the layer number, `v` the one-bit value. -/
inductive Instr where
  | nop
  | start (ly : Nat) (md : Mode) (pr : Bool) (base : Word) (count sf ef : Half)
  | stop (ly : Nat)
  | trackTick (ly : Nat)
  | setSpeed (ly : Nat) (ms : Word)
  | pause (ly : Nat)
  | resume (ly : Nat)
  | restoreSpeed (ly : Nat)
  | layersUpdate
  | setLayerInvert (v : Bool)
  | getFrame (ly : Nat)
  | canvasBegin
  | canvasEnd
  | canvasToFrame
  | canvasLoadFrame (w0 w1 w2 : Word)
  | canvasSetPixel (x y : Nat) (v : Bool)
  | setCanvasRotation (rot : Rotation)
  | setCanvasInvert (v : Bool)
  | ledSet (cell : CellAddr) (v : Bool)
  | ledToggle (cell : CellAddr)
  | ledBlink (cell : CellAddr) (rate : Word)
  | ledNoblink (cell : CellAddr)
  | ledUpdateBlinks
  | ledShow
  | ledGet (cell : CellAddr)
  | readReg (ly reg : Nat) (index : Word)
  deriving DecidableEq, Repr

end Sys2Proof
end

