-- ==== Sys2Proof/WellFormed.lean ====
section
/-! DEFINITION. Which terms of `Instr` have an encoding: every operand fits its field
(30_encoding.md R82, R83). Operands typed by their width need no check. -/

namespace Sys2Proof

/-- A layer number fits LY, 3 bits (30_encoding.md R82). -/
def layerFits (ly : Nat) : Bool := decide (ly < 8)

/-- A coordinate, linear index or register number fits its 8-bit field (30_encoding.md R82, R83). -/
def byteFits (n : Nat) : Bool := decide (n < 256)

/-- A cell address fits X and Y (30_encoding.md R87). -/
def CellAddr.fits : CellAddr → Bool
  | .xy x y => byteFits x && byteFits y
  | .linear i => byteFits i

/-- The instruction has an encoding. -/
def Instr.wellFormed : Instr → Bool
  | .nop => true
  | .start ly _ _ _ _ _ _ => layerFits ly
  | .stop ly => layerFits ly
  | .trackTick ly => layerFits ly
  | .setSpeed ly _ => layerFits ly
  | .pause ly => layerFits ly
  | .resume ly => layerFits ly
  | .restoreSpeed ly => layerFits ly
  | .layersUpdate => true
  | .setLayerInvert _ => true
  | .getFrame ly => layerFits ly
  | .canvasBegin => true
  | .canvasEnd => true
  | .canvasToFrame => true
  | .canvasLoadFrame _ _ _ => true
  | .canvasSetPixel x y _ => byteFits x && byteFits y
  | .setCanvasRotation _ => true
  | .setCanvasInvert _ => true
  | .ledSet cell _ => cell.fits
  | .ledToggle cell => cell.fits
  | .ledBlink cell _ => cell.fits
  | .ledNoblink cell => cell.fits
  | .ledUpdateBlinks => true
  | .ledShow => true
  | .ledGet cell => cell.fits
  | .readReg ly reg _ => layerFits ly && byteFits reg

end Sys2Proof
end

