-- ==== Sys2Proof/Decode.lean ====
section
/-! DEFINITION. The decoder, total on every transaction and rejecting by name, and the encoder,
both written from 30_encoding.md R82, R83 and R85. -/

namespace Sys2Proof

/-! ## Fields of C0 (30_encoding.md R82) -/

/-- OP = C0[31:24]. -/
def Command.op (c : Command) : BitVec 8 := c.c0.extractLsb' 24 8
/-- LY = C0[23:21]. -/
def Command.ly (c : Command) : Nat := (c.c0.extractLsb' 21 3).toNat
/-- MD = C0[20:19]. -/
def Command.md (c : Command) : BitVec 2 := c.c0.extractLsb' 19 2
/-- PR = C0[18]. -/
def Command.pr (c : Command) : Bool := c.c0.getLsbD 18
/-- AM = C0[17]. -/
def Command.am (c : Command) : Bool := c.c0.getLsbD 17
/-- V = C0[16]. -/
def Command.v (c : Command) : Bool := c.c0.getLsbD 16
/-- X = C0[15:8]. -/
def Command.x (c : Command) : Nat := (c.c0.extractLsb' 8 8).toNat
/-- Y = C0[7:0]. -/
def Command.y (c : Command) : Nat := (c.c0.extractLsb' 0 8).toNat

/-! ## Codes of the named operands -/

/-- MD decode (30_encoding.md R88; 10_state.md R22). -/
def Mode.ofCode (b : BitVec 2) : Mode :=
  if b = 0#2 then .once else if b = 1#2 then .loop else if b = 2#2 then .boomerang else .boomerangOnce

/-- The code of a mode (10_state.md R22). -/
def Mode.code : Mode → BitVec 2
  | .once => 0#2
  | .loop => 1#2
  | .boomerang => 2#2
  | .boomerangOnce => 3#2

/-- The code of a rotation (10_state.md R36). -/
def Rotation.code : Rotation → BitVec 2
  | .deg0 => 0#2
  | .deg90 => 1#2
  | .deg180 => 2#2
  | .deg270 => 3#2

/-- rot decode (30_encoding.md R83; 10_state.md R36). -/
def Rotation.ofCode (b : BitVec 2) : Rotation :=
  if b = 0#2 then .deg0 else if b = 1#2 then .deg90 else if b = 2#2 then .deg180 else .deg270

/-- The cell an LED command names: AM picks `(X, Y)` or the linear index X (30_encoding.md R87). -/
def Command.cell (c : Command) : CellAddr :=
  if c.am then .linear c.x else .xy c.x c.y

/-! ## The decoder -/

/-- OP selects the command alone (30_encoding.md R85); operand words as R83 says; fields a command
does not use are not read (R93, R96). An opcode that is not in the table is rejected by name. -/
def decode (c : Command) : Except DecodeReject Instr :=
  match c.op.toNat with
  | 0x00 => .ok .nop
  | 0x01 => .ok (.start c.ly (Mode.ofCode c.md) c.pr c.c1 (c.c2.extractLsb' 0 16)
      (c.c3.extractLsb' 16 16) (c.c3.extractLsb' 0 16))
  | 0x02 => .ok (.stop c.ly)
  | 0x03 => .ok (.trackTick c.ly)
  | 0x04 => .ok (.setSpeed c.ly c.c1)
  | 0x05 => .ok (.pause c.ly)
  | 0x06 => .ok (.resume c.ly)
  | 0x07 => .ok (.restoreSpeed c.ly)
  | 0x10 => .ok .layersUpdate
  | 0x11 => .ok (.setLayerInvert c.v)
  | 0x12 => .ok (.getFrame c.ly)
  | 0x20 => .ok .canvasBegin
  | 0x21 => .ok .canvasEnd
  | 0x22 => .ok .canvasToFrame
  | 0x23 => .ok (.canvasLoadFrame c.c1 c.c2 c.c3)
  | 0x24 => .ok (.canvasSetPixel c.x c.y c.v)
  | 0x25 => .ok (.setCanvasRotation (Rotation.ofCode (c.c1.extractLsb' 0 2)))
  | 0x26 => .ok (.setCanvasInvert c.v)
  | 0x30 => .ok (.ledSet c.cell c.v)
  | 0x31 => .ok (.ledToggle c.cell)
  | 0x32 => .ok (.ledBlink c.cell c.c1)
  | 0x33 => .ok (.ledNoblink c.cell)
  | 0x34 => .ok .ledUpdateBlinks
  | 0x35 => .ok .ledShow
  | 0x36 => .ok (.ledGet c.cell)
  | 0x40 => .ok (.readReg c.ly (c.c1.extractLsb' 0 8).toNat c.c2)
  | op => .error (.undefinedOpcode op)

/-- A decoder always consumes four words (30_encoding.md R95): the instruction and the rest. -/
def decodeWords : List Word → Except DecodeReject (Instr × List Word)
  | c0 :: c1 :: c2 :: c3 :: rest =>
    match decode ⟨c0, c1, c2, c3⟩ with
    | .ok i => .ok (i, rest)
    | .error r => .error r
  | ws => .error (.tooFewWords ws.length)

/-! ## The encoder -/

/-- `C0 = {OP, LY, MD, PR, AM, V, X, Y}` (30_encoding.md R82). -/
def packC0 (op : BitVec 8) (ly : Nat) (md : BitVec 2) (pr am v : Bool) (x y : Nat) : Word :=
  op ++ BitVec.ofNat 3 ly ++ md ++ BitVec.ofBool pr ++ BitVec.ofBool am ++ BitVec.ofBool v
    ++ BitVec.ofNat 8 x ++ BitVec.ofNat 8 y

/-- C0 of a command that uses no field but OP; unused fields are written 0 (30_encoding.md R93). -/
def c0Plain (op : BitVec 8) : Word := packC0 op 0 0#2 false false false 0 0
/-- C0 of a command that uses LY. -/
def c0Layer (op : BitVec 8) (ly : Nat) : Word := packC0 op ly 0#2 false false false 0 0
/-- C0 of a command that uses V. -/
def c0Value (op : BitVec 8) (v : Bool) : Word := packC0 op 0 0#2 false false v 0 0
/-- C0 of a command that names a cell (30_encoding.md R87); `Y` is written 0 when AM = 1. -/
def c0Cell (op : BitVec 8) (v : Bool) : CellAddr → Word
  | .xy x y => packC0 op 0 0#2 false false v x y
  | .linear i => packC0 op 0 0#2 false true v i 0

/-- The transaction of an instruction (30_encoding.md R82, R83, R85). -/
def encode : Instr → Command
  | .nop => ⟨c0Plain 0x00#8, 0#32, 0#32, 0#32⟩
  | .start ly md pr base count sf ef =>
    ⟨packC0 0x01#8 ly md.code pr false false 0 0, base, 0#16 ++ count, sf ++ ef⟩
  | .stop ly => ⟨c0Layer 0x02#8 ly, 0#32, 0#32, 0#32⟩
  | .trackTick ly => ⟨c0Layer 0x03#8 ly, 0#32, 0#32, 0#32⟩
  | .setSpeed ly ms => ⟨c0Layer 0x04#8 ly, ms, 0#32, 0#32⟩
  | .pause ly => ⟨c0Layer 0x05#8 ly, 0#32, 0#32, 0#32⟩
  | .resume ly => ⟨c0Layer 0x06#8 ly, 0#32, 0#32, 0#32⟩
  | .restoreSpeed ly => ⟨c0Layer 0x07#8 ly, 0#32, 0#32, 0#32⟩
  | .layersUpdate => ⟨c0Plain 0x10#8, 0#32, 0#32, 0#32⟩
  | .setLayerInvert v => ⟨c0Value 0x11#8 v, 0#32, 0#32, 0#32⟩
  | .getFrame ly => ⟨c0Layer 0x12#8 ly, 0#32, 0#32, 0#32⟩
  | .canvasBegin => ⟨c0Plain 0x20#8, 0#32, 0#32, 0#32⟩
  | .canvasEnd => ⟨c0Plain 0x21#8, 0#32, 0#32, 0#32⟩
  | .canvasToFrame => ⟨c0Plain 0x22#8, 0#32, 0#32, 0#32⟩
  | .canvasLoadFrame w0 w1 w2 => ⟨c0Plain 0x23#8, w0, w1, w2⟩
  | .canvasSetPixel x y v => ⟨packC0 0x24#8 0 0#2 false false v x y, 0#32, 0#32, 0#32⟩
  | .setCanvasRotation rot => ⟨c0Plain 0x25#8, 0#30 ++ rot.code, 0#32, 0#32⟩
  | .setCanvasInvert v => ⟨c0Value 0x26#8 v, 0#32, 0#32, 0#32⟩
  | .ledSet cell v => ⟨c0Cell 0x30#8 v cell, 0#32, 0#32, 0#32⟩
  | .ledToggle cell => ⟨c0Cell 0x31#8 false cell, 0#32, 0#32, 0#32⟩
  | .ledBlink cell rate => ⟨c0Cell 0x32#8 false cell, rate, 0#32, 0#32⟩
  | .ledNoblink cell => ⟨c0Cell 0x33#8 false cell, 0#32, 0#32, 0#32⟩
  | .ledUpdateBlinks => ⟨c0Plain 0x34#8, 0#32, 0#32, 0#32⟩
  | .ledShow => ⟨c0Plain 0x35#8, 0#32, 0#32, 0#32⟩
  | .ledGet cell => ⟨c0Cell 0x36#8 false cell, 0#32, 0#32, 0#32⟩
  | .readReg ly reg index => ⟨c0Layer 0x40#8 ly, 0#24 ++ BitVec.ofNat 8 reg, index, 0#32⟩

/-! ## The opcode table's numbering of bits -/

/-- The transaction whose bits, numbered from the least significant bit of C0 on, are the low
`nbits` bits of `w`; every bit above is 0. -/
def Command.ofNat (nbits w : Nat) : Command :=
  let v := w % 2 ^ nbits
  ⟨BitVec.ofNat 32 v, BitVec.ofNat 32 (v >>> 32), BitVec.ofNat 32 (v >>> 64), BitVec.ofNat 32 (v >>> 96)⟩

/-- What the decoder reads from an instruction whose bits are `w`. -/
def decodeTableWord (nbits w : Nat) : Option Instr :=
  match decode (Command.ofNat nbits w) with
  | .ok i => some i
  | .error _ => none

end Sys2Proof
end

