-- ==== Sys2Proof/Machine/State.lean ====
section
/-! DEFINITION. The state of the block (10_state.md R20 to R41), of the parameters and inputs a
step takes (00_scope.md R7, R15), of what the host observes (R16), and reset (10_state.md R51). -/

namespace Sys2Proof.Machine

/-- Playback state of a layer (10_state.md R21). -/
inductive PlayState where
  | idle | playing | paused | completed
  deriving DecidableEq, Repr

/-- Direction of a layer (10_state.md R23). -/
inductive Dir where
  | fwd | bwd
  deriving DecidableEq, Repr

/-- One layer's AnimationTrack (10_state.md R21 to R31), `trk[L]`. -/
structure Track where
  /-- R21. -/
  state : PlayState
  /-- R22. -/
  mode : Mode
  /-- R23. -/
  dir : Dir
  /-- R24, `isReversing`. -/
  isRev : Bool
  /-- R25, `currentFrameIndex`. -/
  cur : Half
  /-- R26, `startFrameIndex`. -/
  s : Half
  /-- R26, `endFrameIndex`. -/
  e : Half
  /-- R27, the animation's frame count; 0 = no animation (R32). -/
  count : Half
  /-- R28, word address of row 0. -/
  base : Word
  /-- R29, NOW of the last start, resume or successful advance. -/
  lastUpdate : Word
  /-- R30, `speedOverrideMs`. -/
  speed : Word
  /-- R30, `isCustomSpeed`. -/
  isCustom : Bool
  /-- R31, the words of the timing RAM written so far, from entry 0 on; an entry beyond the list
  was never written and is a free value (log 6). -/
  timing : List Word
  deriving DecidableEq, Repr

/-- A packed frame: the three words a sink write carries (00_scope.md R11; 20_memory.md R66). -/
structure Packed where
  w0 : Word
  w1 : Word
  w2 : Word
  deriving DecidableEq, Repr

/-- The four response words of a read command (30_encoding.md R84). -/
structure Response where
  rsp0 : Word
  rsp1 : Word
  rsp2 : Word
  rsp3 : Word
  deriving DecidableEq, Repr

/-- The sub-range and direction START derives (40_track.md R112, R114). -/
structure SubRange where
  s : Half
  e : Half
  dir : Dir
  deriving DecidableEq, Repr

/-- Animation memory: (word address, word), addresses strictly rising. The addresses listed are
ANIM_READABLE, the words the host keeps valid (20_memory.md R60, R61, R64; logs 1 and 2). -/
abbrev Memory := List (Nat × Word)

/-- What an address that is not listed reads as: nothing, it is outside ANIM_READABLE. -/
def Memory.unlisted : Option Word := none

/-- Addresses strictly rise. -/
def Memory.rising : Memory → Bool
  | [] => true
  | [_] => true
  | (a, _) :: (b, w) :: m => decide (a < b) && Memory.rising ((b, w) :: m)

/-- The canonical form: strictly rising addresses, each a 32-bit word address (20_memory.md R60). -/
def Memory.wf (m : Memory) : Bool := m.rising && m.all fun p => decide (p.1 < 2 ^ 32)

/-- What the host supplies beside the command words: NOW (30_encoding.md R81), and the addresses
it writes while the command is in progress, against its duty (20_memory.md R73; log 7). -/
structure Inputs where
  now : Word
  racing : List Word
  deriving DecidableEq, Repr

/-- What the host can do to the block and its memory, one at a time (00_scope.md R15;
70_reset_and_hazards.md R270, R279; log 8). -/
inductive HostEvent where
  /-- A command transaction (30_encoding.md R80). -/
  | command (c : Command) (inp : Inputs)
  /-- A write of an animation-memory word between commands; the word is then in ANIM_READABLE. -/
  | writeWord (a w : Word)
  /-- The host stops keeping a word valid (20_memory.md R64). -/
  | releaseWord (a : Word)
  /-- The reset input, asserted and released (70_reset_and_hazards.md R270; log 10). -/
  | reset
  deriving DecidableEq, Repr

/-- The state a step reads and writes. -/
structure State where
  /-- The layers; LAYERS is the length (10_state.md R20; 00_scope.md R7). -/
  trk : List Track
  /-- R34. -/
  layerInvert : Bool
  /-- R35. -/
  canvas : FrameVec
  /-- R36. -/
  rotation : Rotation
  /-- R37. -/
  canvasInvert : Bool
  /-- R38. -/
  led : FrameVec
  /-- R39. -/
  blinkInterval : Vector Word 96
  /-- R40. -/
  lastToggle : Vector Word 96
  /-- R41. -/
  dirty : Bool
  /-- The implementation parameters (00_scope.md R7). -/
  params : Params
  /-- Animation memory and ANIM_READABLE (20_memory.md R60, R64). -/
  mem : Memory
  /-- The inputs sampled with the last accepted command (30_encoding.md R81). -/
  inp : Inputs
  /-- Host events not yet taken, oldest first (the model's own; log 8). -/
  pending : List HostEvent
  /-- Sink writes made, oldest first (00_scope.md R16; 20_memory.md R66). -/
  sink : List Packed
  /-- Responses given, oldest first (00_scope.md R16; 30_encoding.md R84). -/
  responses : List Response
  /-- Commands accepted (the model's own; only an argument of `Config.racingWord`; log 7). -/
  accepted : Nat
  deriving DecidableEq, Repr

/-- Why a step stops. Raised by START, LAYERS_UPDATE and GET_FRAME only: a read of animation
memory at an address outside ANIM_READABLE, a breach of the host's duty to which the spec gives
no meaning and for which it asks a model to record this fault (20_memory.md R64;
60_exceptions.md R252). Safe: the hardware goes on with a word the sources do not settle. -/
inductive Fault where
  | animReadOutsideWindow (address : Word)
  deriving DecidableEq, Repr

/-- Why an instruction has no meaning. Raised by an arm of `exec` that has none yet, and by
nothing else. Safe: the machine stops. -/
inductive Refusal where
  | notModelled (mnemonic : String)
  deriving DecidableEq, Repr

/-- The outcome of a step or of an instruction. -/
abbrev Result := Host.Outcome State Fault Refusal

/-- A layer after reset (10_state.md R51). -/
def Track.reset : Track where
  state := .idle
  mode := .once
  dir := .fwd
  isRev := false
  cur := 0#16
  s := 0#16
  e := 0#16
  count := 0#16
  base := 0#32
  lastUpdate := 0#32
  speed := 0#32
  isCustom := false
  timing := []

/-- The machine right after reset (10_state.md R51; 70_reset_and_hazards.md R270), for the
instance of the parameters that logs 3 to 5 name, with nothing in animation memory and nothing
offered by the host yet. -/
def State.reset : State where
  trk := List.replicate Config.resetLayers Track.reset
  layerInvert := false
  canvas := 0#96
  rotation := .deg0
  canvasInvert := false
  led := 0#96
  blinkInterval := Vector.replicate 96 0#32
  lastToggle := Vector.replicate 96 0#32
  dirty := false
  params := ⟨Config.resetMaxFrames, Config.rot90Src, Config.rot270Src⟩
  mem := []
  inp := ⟨0#32, []⟩
  pending := []
  sink := []
  responses := []
  accepted := 0

end Sys2Proof.Machine
end

