-- ==== Sys2Proof/Machine/Frame.lean ====
section
/-! DEFINITION. Frame vectors: packing, unpacking, and the canvas packer (00_scope.md R10, R11;
42_canvas.md R180 to R183). -/

namespace Sys2Proof.Machine

/-- The `n`-bit vector whose bit `i` is `f i`. -/
def bitsOf : (n : Nat) → (Nat → Bool) → BitVec n
  | 0, _ => 0#0
  | n + 1, f => BitVec.cons (f n) (bitsOf n f)

/-- `ONES96` (00_scope.md R12). -/
def ones96 : FrameVec := BitVec.allOnes 96

/-- Word `k` of a packed frame: `W_k[b] = F[32*k + 31 - b]` (00_scope.md R11). -/
def packWord (F : FrameVec) (k : Nat) : Word := bitsOf 32 fun b => F.getLsbD (32 * k + 31 - b)

/-- `pack(F)` (00_scope.md R11). -/
def pack (F : FrameVec) : Packed := ⟨packWord F 0, packWord F 1, packWord F 2⟩

/-- Word `k` of a packed frame's three words. -/
def Packed.word (p : Packed) : Nat → Word
  | 0 => p.w0
  | 1 => p.w1
  | _ => p.w2

/-- `unpack(W0, W1, W2)`: `F[i] = W_(i/32)[31 - i%32]` (00_scope.md R11). -/
def unpack (p : Packed) : FrameVec := bitsOf 96 fun i => (p.word (i / 32)).getLsbD (31 - i % 32)

/-- Cell `d` of the canvas seen through a 90° or 270° map: the source cell's value, or 0 when
the map gives none (42_canvas.md R180, R181). -/
def throughMap (m : RotMap) (canvas : FrameVec) (d : Nat) : Bool :=
  match m[d]? with
  | some (some src) => canvas.getLsbD src.val
  | _ => false

/-- Cell `d` of the rotated canvas (42_canvas.md R180, R181). -/
def rotatedCell (p : Params) (rot : Rotation) (canvas : FrameVec) (d : Nat) : Bool :=
  match rot with
  | .deg0 => canvas.getLsbD d
  | .deg180 => canvas.getLsbD (95 - d)
  | .deg90 => throughMap p.rot90Src canvas d
  | .deg270 => throughMap p.rot270Src canvas d

/-- The rotated canvas (42_canvas.md R180). -/
def rotated (p : Params) (rot : Rotation) (canvas : FrameVec) : FrameVec :=
  bitsOf 96 (rotatedCell p rot canvas)

/-- Complement all 96 bits when the flag is set (42_canvas.md R182; 41_layerset.md R160). -/
def invertIf (inv : Bool) (F : FrameVec) : FrameVec := if inv then F ^^^ ones96 else F

/-- The packer `canvasToFrame()`: rotation, then invert, then packing (42_canvas.md R180 to R183). -/
def canvasToFrame (s : State) : Packed :=
  pack (invertIf s.canvasInvert (rotated s.params s.rotation s.canvas))

/-- `F[i] <- v`. -/
def setCell (F : FrameVec) (i : Cell) (v : Bool) : FrameVec :=
  bitsOf 96 fun j => if j = i.val then v else F.getLsbD j

end Sys2Proof.Machine
end

