-- ==== Sys2Proof/Machine/Operands.lean ====
section
/-! DEFINITION. Operand forms and operand arithmetic: cell selection, clamps, the START range,
elapsed time and the frame interval. -/

namespace Sys2Proof.Machine

/-- `(x, y)` is in range when `x <= 11` and `y <= 7`, giving `i = 12*y + x` (30_encoding.md R87). -/
def gridCell (x y : Nat) : Option Cell :=
  if h : x ≤ 11 ∧ y ≤ 7 then some ⟨12 * y + x, by omega⟩ else none

/-- A linear index is in range when `i <= 95` (30_encoding.md R87). -/
def linearCell (i : Nat) : Option Cell :=
  if h : i ≤ 95 then some ⟨i, by omega⟩ else none

/-- The cell an LED command selects, none when out of range (30_encoding.md R87; 43_ledgrid.md R200). -/
def cellOf : CellAddr → Option Cell
  | .xy x y => gridCell x y
  | .linear i => linearCell i

/-- `clamp(v, lo, hi) = min(max(v, lo), hi)` (00_scope.md R12). -/
def clamp (v lo hi : Nat) : Nat := min (max v lo) hi

/-- The 1-based endpoints START plays, `(sf, ef)`: the pair (0, 0) is the full range, otherwise each
is clamped into `[1, count]` (40_track.md R112). -/
def startEnds (count sf ef : Half) : Nat × Nat :=
  if sf = 0#16 ∧ ef = 0#16 then (1, count.toNat)
  else (clamp sf.toNat 1 count.toNat, clamp ef.toNat 1 count.toNat)

/-- Zero-based endpoints, swapped with direction backward when the first exceeds the second
(40_track.md R112, R114). -/
def startRange (count sf ef : Half) : SubRange :=
  let si := (startEnds count sf ef).1 - 1
  let ei := (startEnds count sf ef).2 - 1
  if si > ei then ⟨BitVec.ofNat 16 ei, BitVec.ofNat 16 si, .bwd⟩
  else ⟨BitVec.ofNat 16 si, BitVec.ofNat 16 ei, .fwd⟩

/-- START fails into IDLE: null reference, no frames, or more than the timing RAM holds
(40_track.md R111). -/
def startFails (maxFrames : Nat) (pr : Bool) (count : Half) : Bool :=
  !pr || decide (count = 0#16) || decide (maxFrames < count.toNat)

/-- `elapsed(t) = (now - t) mod 2^32` (00_scope.md R12, R13). -/
def elapsed (now t : Word) : Word := now - t

/-- `valid(L)`: the layer holds an animation (10_state.md R32). -/
def Track.valid (t : Track) : Bool := decide (t.count ≠ 0#16)

/-- Entry `k` of layer `L`'s timing RAM; an entry never written is a free value (10_state.md R31,
R51; log 6). -/
def Track.timingAt (L : Nat) (t : Track) (k : Nat) : Word := t.timing.getD k (Config.timingPowerUp L k)

/-- The interval of the frame now shown: the custom speed, or the frame's copied duration
(40_track.md R121). -/
def Track.interval (L : Nat) (t : Track) : Word :=
  if t.isCustom then t.speed else t.timingAt L t.cur.toNat

/-- Word address of word `j` of row `r` of an animation at `base`, modulo 2^32 (20_memory.md R62). -/
def rowWord (base : Word) (r j : Nat) : Word := base + BitVec.ofNat 32 (4 * r + j)

end Sys2Proof.Machine
end

