-- ==== Sys2Proof/Machine/Ops.lean ====
section
/-! DEFINITION. The named operations over animation memory, layers, the sink, the responses and
the LED grid, and what each host event does. The block takes no exception and returns from none
(60_exceptions.md R250, R255), so no such operation stands here. -/

namespace Sys2Proof.Machine

/-! ## Animation memory -/

/-- The word listed at an address. -/
def Memory.read : Memory → Nat → Option Word
  | [], _ => Memory.unlisted
  | (b, w) :: m, a => if a = b then some w else Memory.read m a

/-- A host write of one word; the address is listed from then on (20_memory.md R70; log 2). -/
def Memory.write : Memory → Nat → Word → Memory
  | [], a, w => [(a, w)]
  | (b, v) :: m, a, w =>
    if a < b then (a, w) :: (b, v) :: m
    else if a = b then (a, w) :: m
    else (b, v) :: Memory.write m a w

/-- The host stops keeping a word valid: it is unlisted (20_memory.md R64). -/
def Memory.release (m : Memory) (a : Nat) : Memory := m.filter fun p => p.1 != a

/-- The address is in ANIM_READABLE (20_memory.md R64; log 2). -/
def State.readable (s : State) (a : Word) : Bool := (s.mem.read a.toNat).isSome

/-- `MemRead(a, 1)`, read number `n` of the command: the word memory holds; outside ANIM_READABLE
the fault of R252; a draw when the host is writing the address at that time (20_memory.md R61,
R64, R73; log 7). -/
def State.memRead (s : State) (n : Nat) (a : Word) : Except Fault Word :=
  match s.mem.read a.toNat with
  | none => .error (.animReadOutsideWindow a)
  | some w => .ok (if a ∈ s.inp.racing then Config.racingWord s.accepted n else w)

/-- The duration words of rows `k .. k+n-1`, read in increasing `k`; the first fault is reported
(40_track.md R113; 60_exceptions.md R254). -/
def State.copyTimings (s : State) (base : Word) : (k n : Nat) → Except Fault (List Word)
  | _, 0 => .ok []
  | k, n + 1 =>
    match s.memRead k (rowWord base k 3) with
    | .error f => .error f
    | .ok w =>
      match s.copyTimings base (k + 1) n with
      | .error f => .error f
      | .ok ws => .ok (w :: ws)

/-- Words 0, 1, 2 of the row a layer shows, reads number `n`, `n+1`, `n+2` of the command
(41_layerset.md R160, R164). -/
def State.fetchFrame (s : State) (n : Nat) (t : Track) : Except Fault Packed :=
  match s.memRead n (rowWord t.base t.cur.toNat 0) with
  | .error f => .error f
  | .ok w0 =>
    match s.memRead (n + 1) (rowWord t.base t.cur.toNat 1) with
    | .error f => .error f
    | .ok w1 =>
      match s.memRead (n + 2) (rowWord t.base t.cur.toNat 2) with
      | .error f => .error f
      | .ok w2 => .ok ⟨w0, w1, w2⟩

/-- The OR of the frames of the valid layers among `ts`, the first of which is layer `L`, in
ascending order (41_layerset.md R160, R162, R165). -/
def State.compositeFrom (s : State) : Nat → List Track → Except Fault FrameVec
  | _, [] => .ok 0#96
  | L, t :: ts =>
    if t.valid then
      match s.fetchFrame (3 * L) t with
      | .error f => .error f
      | .ok p =>
        match s.compositeFrom (L + 1) ts with
        | .error f => .error f
        | .ok c => .ok (unpack p ||| c)
    else s.compositeFrom (L + 1) ts

/-! ## Layers, sink, responses -/

/-- LAYERS, the number of layers (00_scope.md R7; log 3). -/
def State.layers (s : State) : Nat := s.trk.length

/-- Change layer `ly`; a layer number `>= LAYERS` changes nothing (30_encoding.md R86). -/
def State.onTrack (s : State) (ly : Nat) (f : Track → Track) : State :=
  { s with trk := s.trk.modify ly f }

/-- `SinkWrite(W0, W1, W2)` (20_memory.md R66). -/
def State.sinkWrite (s : State) (p : Packed) : State := { s with sink := s.sink ++ [p] }

/-- `Respond(RSP0, RSP1, RSP2, RSP3)` (30_encoding.md R84). -/
def State.respond (s : State) (r : Response) : State := { s with responses := s.responses ++ [r] }

/-! ## LED grid -/

/-- The write step `ledWrite(i, v)` (43_ledgrid.md R201). -/
def State.ledWrite (s : State) (i : Cell) (v : Bool) : State :=
  if s.led.getLsbD i.val = v then s else { s with led := setCell s.led i v, dirty := true }

/-- The show step (43_ledgrid.md R202). -/
def State.show (s : State) : State :=
  if s.dirty then { s.sinkWrite (pack s.led) with dirty := false } else s

/-- `blinkInterval[i] <- r` (43_ledgrid.md R203 to R206). -/
def State.setInterval (s : State) (i : Cell) (r : Word) : State :=
  { s with blinkInterval := s.blinkInterval.set i.val r }

/-- `lastToggle[i] <- t` (43_ledgrid.md R205, R207). -/
def State.setLastToggle (s : State) (i : Cell) (t : Word) : State :=
  { s with lastToggle := s.lastToggle.set i.val t }

/-- Cell `i` blinks and its interval has passed (43_ledgrid.md R207). -/
def State.blinkDue (s : State) (i : Nat) : Bool :=
  match s.blinkInterval[i]?, s.lastToggle[i]? with
  | some r, some t => decide (r ≠ 0#32) && decide (r ≤ elapsed s.inp.now t)
  | _, _ => false

/-- The cells whose toggle is due, as a frame vector. -/
def State.dueCells (s : State) : FrameVec := bitsOf 96 s.blinkDue

/-- Toggle every due cell and stamp it, all at once; `dirty` is set when any cell toggled. It is
the loop of 43_ledgrid.md R207 in closed form, since each cell depends on its own state only
(60_exceptions.md R254; log 12). -/
def State.toggleDue (s : State) : State :=
  { s with
    led := s.led ^^^ s.dueCells
    lastToggle := Vector.ofFn fun i : Cell =>
      if s.blinkDue i.val then s.inp.now else s.lastToggle[i.val]
    dirty := s.dirty || decide (s.dueCells ≠ 0#96) }

/-- The body of the loop of 43_ledgrid.md R207 for one cell, as the spec writes it. -/
def State.blinkCell (s : State) (i : Cell) : State :=
  if s.blinkDue i.val then (s.ledWrite i (!s.led.getLsbD i.val)).setLastToggle i s.inp.now else s

/-- The loop of 43_ledgrid.md R207 over all cells in ascending order, as the spec writes it. -/
def State.blinkLoop (s : State) : State := (List.finRange 96).foldl State.blinkCell s

/-! ## Host events -/

/-- A command is accepted: its NOW (and racing set) is sampled (30_encoding.md R80, R81). -/
def State.accept (s : State) (inp : Inputs) : State :=
  { s with inp := inp, accepted := s.accepted + 1 }

/-- The next host event is taken from the queue (log 8). -/
def State.taken (s : State) (rest : List HostEvent) : State := { s with pending := rest }

/-- Reset asserted and released: every element of the block state at its reset value; no memory
read, no sink write (70_reset_and_hazards.md R270; 10_state.md R51; log 10). -/
def State.blockReset (s : State) : State :=
  { s with
    trk := List.replicate s.layers Track.reset
    layerInvert := false
    canvas := 0#96
    rotation := .deg0
    canvasInvert := false
    led := 0#96
    blinkInterval := Vector.replicate 96 0#32
    lastToggle := Vector.replicate 96 0#32
    dirty := false }

/-- The host writes a word of animation memory (20_memory.md R70). -/
def State.hostWrite (s : State) (a w : Word) : State := { s with mem := s.mem.write a.toNat w }

/-- The host stops keeping a word valid (20_memory.md R64). -/
def State.hostRelease (s : State) (a : Word) : State := { s with mem := s.mem.release a.toNat }

/-- The host offers one more command, ahead of what is pending, with the inputs last sampled. -/
def State.offer (s : State) (c : Command) : State :=
  { s with pending := .command c s.inp :: s.pending }

end Sys2Proof.Machine
end

