-- ==== Sys2Proof/Machine/Canvas.lean ====
section
/-! DEFINITION. The canvas commands: the canvas-to-frame packer (42_canvas.md). -/

namespace Sys2Proof.Machine

/-- CANVAS_BEGIN: a silent no-op (42_canvas.md R184). -/
def execCanvasBegin (s : State) : Result := .next s

/-- CANVAS_END (42_canvas.md R185). -/
def execCanvasEnd (s : State) : Result := .next (s.sinkWrite (canvasToFrame s))

/-- CANVAS_TO_FRAME (42_canvas.md R187). -/
def execCanvasToFrame (s : State) : Result :=
  let p := canvasToFrame s
  .next (s.respond ⟨1#32, p.w0, p.w1, p.w2⟩)

/-- CANVAS_LOAD_FRAME (42_canvas.md R188). -/
def execCanvasLoadFrame (w0 w1 w2 : Word) (s : State) : Result :=
  .next { s with canvas := unpack ⟨w0, w1, w2⟩ }

/-- CANVAS_SET_PIXEL (42_canvas.md R186). -/
def execCanvasSetPixel (x y : Nat) (v : Bool) (s : State) : Result :=
  match gridCell x y with
  | none => .next s
  | some i => .next { s with canvas := setCell s.canvas i v }

/-- SET_CANVAS_ROTATION (42_canvas.md R189). -/
def execSetCanvasRotation (rot : Rotation) (s : State) : Result := .next { s with rotation := rot }

/-- SET_CANVAS_INVERT (42_canvas.md R190). -/
def execSetCanvasInvert (v : Bool) (s : State) : Result := .next { s with canvasInvert := v }

end Sys2Proof.Machine
end

