-- ==== Sys2Proof/Machine/Track.lean ====
section
/-! DEFINITION. The track commands: the frame-advance state machine (40_track.md). -/

namespace Sys2Proof.Machine

/-! ## The advance of one layer -/

/-- A tick of layer `L` is due: the layer plays an animation and the interval of the frame shown
has passed (40_track.md R120, R121). -/
def Track.due (L : Nat) (now : Word) (t : Track) : Bool :=
  decide (t.state = .playing) && t.valid && decide (t.interval L ≤ elapsed now t.lastUpdate)

/-- Completion writes the state and nothing else (40_track.md R127). -/
def Track.complete (t : Track) : Track := { t with state := .completed }

/-- A successful advance to frame `n` (40_track.md R128). -/
def Track.moveTo (now : Word) (n : Half) (t : Track) : Track := { t with cur := n, lastUpdate := now }

/-- Forward step, ONCE and LOOP (40_track.md R123). -/
def Track.stepForward (now : Word) (t : Track) : Track :=
  if t.e ≤ t.cur then
    if t.mode = .once then t.complete else t.moveTo now t.s
  else t.moveTo now (t.cur + 1#16)

/-- Backward step, ONCE and LOOP (40_track.md R124). -/
def Track.stepBackward (now : Word) (t : Track) : Track :=
  if t.cur ≤ t.s then
    if t.mode = .once then t.complete else t.moveTo now t.e
  else t.moveTo now (t.cur - 1#16)

/-- The initial bound of a boomerang (40_track.md R125). -/
def Track.init (t : Track) : Half :=
  match t.dir with
  | .fwd => t.s
  | .bwd => t.e

/-- The far bound of a boomerang (40_track.md R125). -/
def Track.far (t : Track) : Half :=
  match t.dir with
  | .fwd => t.e
  | .bwd => t.s

/-- The outward step of a boomerang (40_track.md R125). -/
def Track.outward (t : Track) : Int :=
  match t.dir with
  | .fwd => 1
  | .bwd => -1

/-- `n` reaches or passes the far bound (40_track.md R125). -/
def Track.reachesFar (t : Track) (n : Int) : Bool :=
  match t.dir with
  | .fwd => decide (n ≥ t.e.toNat)
  | .bwd => decide (n ≤ t.s.toNat)

/-- `n` reaches or passes the initial bound (40_track.md R126). -/
def Track.reachesInit (t : Track) (n : Int) : Bool :=
  match t.dir with
  | .fwd => decide (n ≤ t.s.toNat)
  | .bwd => decide (n ≥ t.e.toNat)

/-- Boomerang step, BOOMERANG and BOOMERANG_ONCE; `n` is an unbounded integer, stored modulo 2^16
(40_track.md R125, R126; 00_scope.md R13). -/
def Track.stepBoomerang (now : Word) (t : Track) : Track :=
  if t.isRev then
    let n : Int := t.cur.toNat - t.outward
    if t.reachesInit n then
      if t.mode = .boomerangOnce then t.complete
      else { t.moveTo now t.init with isRev := false }
    else t.moveTo now (BitVec.ofInt 16 n)
  else
    let n : Int := t.cur.toNat + t.outward
    if t.reachesFar n then { t.moveTo now t.far with isRev := true }
    else t.moveTo now (BitVec.ofInt 16 n)

/-- `advance(L)` (40_track.md R120): at most one frame, whatever the time passed (R122). -/
def Track.advance (L : Nat) (now : Word) (t : Track) : Track :=
  if t.due L now then
    match t.mode with
    | .once | .loop =>
      match t.dir with
      | .fwd => t.stepForward now
      | .bwd => t.stepBackward now
    | .boomerang | .boomerangOnce => t.stepBoomerang now
  else t

/-! ## What the other track commands do to their layer -/

/-- A START that passes, with the durations `ds` read (40_track.md R110, R112 to R115). The copy
writes entries `0 .. count-1` of the RAM; speed and isCustom are not written. -/
def Track.started (now : Word) (md : Mode) (base : Word) (count : Half) (r : SubRange)
    (ds : List Word) (t : Track) : Track :=
  { t with
    state := .playing
    mode := md
    dir := r.dir
    isRev := false
    cur := if r.dir = .bwd then r.e else r.s
    s := r.s
    e := r.e
    count := count
    base := base
    lastUpdate := now
    timing := ds ++ t.timing.drop ds.length }

/-- Release and IDLE: STOP, and a START that fails (40_track.md R111, R116). -/
def Track.release (t : Track) : Track := { t with count := 0#16, state := .idle }

/-- PLAYING to PAUSED (40_track.md R142). -/
def Track.pause (t : Track) : Track :=
  if t.state = .playing then { t with state := .paused } else t

/-- PAUSED to PLAYING with a fresh timestamp (40_track.md R143). -/
def Track.resume (now : Word) (t : Track) : Track :=
  if t.state = .paused then { t with state := .playing, lastUpdate := now } else t

/-- SET_SPEED (40_track.md R140). -/
def Track.setSpeed (now ms : Word) (t : Track) : Track :=
  if t.valid then
    if ms = 0#32 then t.pause
    else { t with speed := ms, isCustom := true }.resume now
  else t

/-- RESTORE_SPEED (40_track.md R144). -/
def Track.restoreSpeed (now : Word) (t : Track) : Track :=
  { t with speed := 0#32, isCustom := false }.resume now

/-! ## Meanings -/

/-- START (40_track.md R110 to R115). -/
def execStart (ly : Nat) (md : Mode) (pr : Bool) (base : Word) (count sf ef : Half) (s : State) :
    Result :=
  if s.layers ≤ ly then .next s
  else if startFails s.params.maxFrames pr count then .next (s.onTrack ly Track.release)
  else
    match s.copyTimings base 0 count.toNat with
    | .error f => .fault f
    | .ok ds => .next (s.onTrack ly (Track.started s.inp.now md base count (startRange count sf ef) ds))

/-- STOP (40_track.md R116). -/
def execStop (ly : Nat) (s : State) : Result := .next (s.onTrack ly Track.release)

/-- TRACK_TICK (40_track.md R120). -/
def execTrackTick (ly : Nat) (s : State) : Result :=
  .next (s.onTrack ly (Track.advance ly s.inp.now))

/-- SET_SPEED (40_track.md R140). -/
def execSetSpeed (ly : Nat) (ms : Word) (s : State) : Result :=
  .next (s.onTrack ly (Track.setSpeed s.inp.now ms))

/-- PAUSE (40_track.md R142). -/
def execPause (ly : Nat) (s : State) : Result := .next (s.onTrack ly Track.pause)

/-- RESUME (40_track.md R143). -/
def execResume (ly : Nat) (s : State) : Result := .next (s.onTrack ly (Track.resume s.inp.now))

/-- RESTORE_SPEED (40_track.md R144). -/
def execRestoreSpeed (ly : Nat) (s : State) : Result :=
  .next (s.onTrack ly (Track.restoreSpeed s.inp.now))

end Sys2Proof.Machine
end

