-- ==== Sys2Proof/Machine/LayerSet.lean ====
section
/-! DEFINITION. The LayerSet commands: the OR-compositor (41_layerset.md). -/

namespace Sys2Proof.Machine

/-- Every layer's advance, on the same NOW (41_layerset.md R160, R166). -/
def State.advanceAll (s : State) : State :=
  { s with trk := s.trk.mapIdx fun L t => t.advance L s.inp.now }

/-- The loop of 41_layerset.md R160 as the spec writes it, over layers `L .. L+n-1`: advance, then
OR the layer's frame into the composite when it is valid. -/
def State.compositeLoop (s : State) (C : FrameVec) : (L n : Nat) → Except Fault (State × FrameVec)
  | _, 0 => .ok (s, C)
  | L, n + 1 =>
    let s1 := s.onTrack L (Track.advance L s.inp.now)
    match s1.trk[L]? with
    | none => s1.compositeLoop C (L + 1) n
    | some t =>
      if t.valid then
        match s1.fetchFrame (3 * L) t with
        | .error f => .error f
        | .ok p => s1.compositeLoop (C ||| unpack p) (L + 1) n
      else s1.compositeLoop C (L + 1) n

/-- LAYERS_UPDATE (41_layerset.md R160 to R162, R165). The advances run before the fetches, which
gives what the spec's loop gives (R166; log 12). -/
def execLayersUpdate (s : State) : Result :=
  let s1 := s.advanceAll
  match s1.compositeFrom 0 s1.trk with
  | .error f => .fault f
  | .ok C => .next (s1.sinkWrite (pack (invertIf s.layerInvert C)))

/-- SET_LAYER_INVERT (41_layerset.md R163). -/
def execSetLayerInvert (v : Bool) (s : State) : Result := .next { s with layerInvert := v }

/-- GET_FRAME (41_layerset.md R164; 30_encoding.md R84, R86). -/
def execGetFrame (ly : Nat) (s : State) : Result :=
  match s.trk[ly]? with
  | none => .next (s.respond ⟨0#32, 0#32, 0#32, 0#32⟩)
  | some t =>
    if t.valid then
      match s.fetchFrame 0 t with
      | .error f => .fault f
      | .ok p => .next (s.respond ⟨1#32, p.w0, p.w1, p.w2⟩)
    else .next (s.respond ⟨0#32, 0#32, 0#32, 0#32⟩)

end Sys2Proof.Machine
end

