-- ==== Sys2Proof/Machine/LedGrid.lean ====
section
/-! DEFINITION. The LED grid commands: direct addressing and the blink scheduler (43_ledgrid.md). -/

namespace Sys2Proof.Machine

/-- LED_SET (43_ledgrid.md R203). -/
def execLedSet (cell : CellAddr) (v : Bool) (s : State) : Result :=
  match cellOf cell with
  | none => .next s
  | some i => .next (((s.setInterval i 0#32).ledWrite i v).show)

/-- LED_TOGGLE (43_ledgrid.md R204). -/
def execLedToggle (cell : CellAddr) (s : State) : Result :=
  match cellOf cell with
  | none => .next s
  | some i => .next (((s.setInterval i 0#32).ledWrite i (!s.led.getLsbD i.val)).show)

/-- LED_BLINK (43_ledgrid.md R205). -/
def execLedBlink (cell : CellAddr) (rate : Word) (s : State) : Result :=
  match cellOf cell with
  | none => .next s
  | some i =>
    if rate = 0#32 then .next (s.setInterval i 0#32)
    else .next ((((s.setInterval i rate).setLastToggle i s.inp.now).ledWrite i true).show)

/-- LED_NOBLINK (43_ledgrid.md R206). -/
def execLedNoblink (cell : CellAddr) (s : State) : Result :=
  match cellOf cell with
  | none => .next s
  | some i => .next (s.setInterval i 0#32)

/-- LED_UPDATE_BLINKS (43_ledgrid.md R207). -/
def execLedUpdateBlinks (s : State) : Result := .next s.toggleDue.show

/-- LED_SHOW (43_ledgrid.md R208). -/
def execLedShow (s : State) : Result := .next s.show

/-- RSP0 of LED_GET: value in bit 0, address in range in bit 1, blinking in bit 2
(30_encoding.md R84; 43_ledgrid.md R209). -/
def ledGetWord (s : State) (i : Cell) : Word :=
  (BitVec.ofBool (decide (s.blinkInterval[i.val] ≠ 0#32)) ++ BitVec.ofBool true
    ++ BitVec.ofBool (s.led.getLsbD i.val) : BitVec 3).setWidth 32

/-- LED_GET (43_ledgrid.md R209). -/
def execLedGet (cell : CellAddr) (s : State) : Result :=
  match cellOf cell with
  | none => .next (s.respond ⟨0#32, 0#32, 0#32, 0#32⟩)
  | some i => .next (s.respond ⟨ledGetWord s i, 0#32, 0#32, 0#32⟩)

end Sys2Proof.Machine
end

