-- ==== Sys2Proof/Machine/Flags.lean ====
section
/-! DEFINITION. Status fields and the register map that READ_REG reads (10_state.md R44 to R47;
44_system.md R233). -/

namespace Sys2Proof.Machine

/-- A flag as a 32-bit word. -/
def flagWord (b : Bool) : Word := (BitVec.ofBool b).setWidth 32

/-- Playback state codes (10_state.md R21). -/
def PlayState.code : PlayState → BitVec 2
  | .idle => 0#2
  | .playing => 1#2
  | .paused => 2#2
  | .completed => 3#2

/-- Direction codes (10_state.md R23). -/
def Dir.code : Dir → Bool
  | .fwd => false
  | .bwd => true

/-- TRK_STATUS: valid, isCustom, isRev, dir, mode, state in bits 7 to 0 (10_state.md R45). -/
def trkStatus (t : Track) : Word :=
  (BitVec.ofBool t.valid ++ BitVec.ofBool t.isCustom ++ BitVec.ofBool t.isRev
    ++ BitVec.ofBool t.dir.code ++ t.mode.code ++ t.state.code : BitVec 8).setWidth 32

/-- TRK_TIMING: entry `index[15:0]` when below `count`, else 0 (44_system.md R233). -/
def trkTiming (L : Nat) (t : Track) (index : Word) : Word :=
  let k := (index.extractLsb' 0 16).toNat
  if k < t.count.toNat then t.timingAt L k else 0#32

/-- CV_CTRL: rotation in bits [1:0], canvasInvert in bit 2 (10_state.md R44). -/
def cvCtrl (s : State) : Word := (BitVec.ofBool s.canvasInvert ++ s.rotation.code : BitVec 3).setWidth 32

/-- PARAMS: `{MAX_FRAMES[15:0], 12'b0, LAYERS[3:0]}` (10_state.md R47). -/
def paramsWord (s : State) : Word :=
  BitVec.ofNat 16 s.params.maxFrames ++ 0#12 ++ BitVec.ofNat 4 s.layers

/-- BLOCK_ID (10_state.md R47). -/
def blockId : Word := 0x54464601#32

/-- A per-cell array register: entry `index[7:0]` when below 96, else 0 (44_system.md R233). -/
def cellRegister (v : Vector Word 96) (index : Word) : Word :=
  v.toList.getD (index.extractLsb' 0 8).toNat 0#32

/-- A per-layer register; a layer `>= LAYERS` reads 0 (30_encoding.md R86). -/
def layerRegister (s : State) (ly : Nat) (f : Track → Word) : Word :=
  match s.trk[ly]? with
  | none => 0#32
  | some t => f t

/-- The register map (10_state.md R44); every number not in it reads 0. -/
def regValue (s : State) (ly reg : Nat) (index : Word) : Word :=
  match reg with
  | 0x00 => layerRegister s ly trkStatus
  | 0x01 => layerRegister s ly fun t => t.cur.setWidth 32
  | 0x02 => layerRegister s ly fun t => t.s.setWidth 32
  | 0x03 => layerRegister s ly fun t => t.e.setWidth 32
  | 0x04 => layerRegister s ly fun t => t.count.setWidth 32
  | 0x05 => layerRegister s ly fun t => t.base
  | 0x06 => layerRegister s ly fun t => t.lastUpdate
  | 0x07 => layerRegister s ly fun t => t.speed
  | 0x08 => layerRegister s ly fun t => trkTiming ly t index
  | 0x10 => flagWord s.layerInvert
  | 0x11 => cvCtrl s
  | 0x12 => flagWord s.dirty
  | 0x13 => cellRegister s.blinkInterval index
  | 0x14 => cellRegister s.lastToggle index
  | 0x15 => packWord s.led 0
  | 0x16 => packWord s.led 1
  | 0x17 => packWord s.led 2
  | 0x18 => packWord s.canvas 0
  | 0x19 => packWord s.canvas 1
  | 0x1A => packWord s.canvas 2
  | 0x1E => paramsWord s
  | 0x1F => blockId
  | _ => 0#32

end Sys2Proof.Machine
end

