-- ==== Sys2Proof/Machine/System.lean ====
section
/-! DEFINITION. The system commands (44_system.md), and what an undefined opcode does. -/

namespace Sys2Proof.Machine

/-- NOP (44_system.md R230). -/
def execNop (s : State) : Result := .next s

/-- READ_REG (44_system.md R232). -/
def execReadReg (ly reg : Nat) (index : Word) (s : State) : Result :=
  .next (s.respond ⟨regValue s ly reg index, 0#32, 0#32, 0#32⟩)

/-- A command the decoder rejects: an undefined opcode is a silent no-op with no response
(30_encoding.md R94). -/
def rejectedCommand (_r : DecodeReject) (s : State) : Result := .next s

end Sys2Proof.Machine
end

