-- ==== Sys2Proof/Machine/Dispatch.lean ====
section
/-! DEFINITION. One arm per command (30_encoding.md R85). -/

namespace Sys2Proof.Machine

def exec (i : Instr) (s : State) : Host.Outcome State Fault Refusal :=
  match i with
  | .nop => Sys2Proof.Machine.execNop s
  | .start ly md pr base count sf ef => Sys2Proof.Machine.execStart ly md pr base count sf ef s
  | .stop ly => Sys2Proof.Machine.execStop ly s
  | .trackTick ly => Sys2Proof.Machine.execTrackTick ly s
  | .setSpeed ly ms => Sys2Proof.Machine.execSetSpeed ly ms s
  | .pause ly => Sys2Proof.Machine.execPause ly s
  | .resume ly => Sys2Proof.Machine.execResume ly s
  | .restoreSpeed ly => Sys2Proof.Machine.execRestoreSpeed ly s
  | .layersUpdate => Sys2Proof.Machine.execLayersUpdate s
  | .setLayerInvert v => Sys2Proof.Machine.execSetLayerInvert v s
  | .getFrame ly => Sys2Proof.Machine.execGetFrame ly s
  | .canvasBegin => Sys2Proof.Machine.execCanvasBegin s
  | .canvasEnd => Sys2Proof.Machine.execCanvasEnd s
  | .canvasToFrame => Sys2Proof.Machine.execCanvasToFrame s
  | .canvasLoadFrame w0 w1 w2 => Sys2Proof.Machine.execCanvasLoadFrame w0 w1 w2 s
  | .canvasSetPixel x y v => Sys2Proof.Machine.execCanvasSetPixel x y v s
  | .setCanvasRotation rot => Sys2Proof.Machine.execSetCanvasRotation rot s
  | .setCanvasInvert v => Sys2Proof.Machine.execSetCanvasInvert v s
  | .ledSet cell v => Sys2Proof.Machine.execLedSet cell v s
  | .ledToggle cell => Sys2Proof.Machine.execLedToggle cell s
  | .ledBlink cell rate => Sys2Proof.Machine.execLedBlink cell rate s
  | .ledNoblink cell => Sys2Proof.Machine.execLedNoblink cell s
  | .ledUpdateBlinks => Sys2Proof.Machine.execLedUpdateBlinks s
  | .ledShow => Sys2Proof.Machine.execLedShow s
  | .ledGet cell => Sys2Proof.Machine.execLedGet cell s
  | .readReg ly reg index => Sys2Proof.Machine.execReadReg ly reg index s

end Sys2Proof.Machine
end

