-- ==== Sys2Proof/Machine/Step.lean ====
section
/-! DEFINITION. One step: the next host event, or waiting when there is none (00_scope.md R15;
70_reset_and_hazards.md R270, R272; log 8). -/

namespace Sys2Proof.Machine

/-- Decode a transaction and run it. -/
def runCommand (c : Command) (s : State) : Host.Outcome State Fault Refusal :=
  match decode c with
  | .ok i => exec i s
  | .error r => rejectedCommand r s

/-- One step. -/
def step (s : State) : Host.Outcome State Fault Refusal :=
  match s.pending with
  | [] => .next s
  | .command c inp :: rest => runCommand c ((s.taken rest).accept inp)
  | .writeWord a w :: rest => .next ((s.taken rest).hostWrite a w)
  | .releaseWord a :: rest => .next ((s.taken rest).hostRelease a)
  | .reset :: rest => .next (s.taken rest).blockReset

/-- The state in which the very next step runs the instruction with these bits: the host offers it
as the next command, with the inputs last sampled (log 9). -/
def State.withFetchWord (s : State) (nbits w : Nat) : State := s.offer (Command.ofNat nbits w)

end Sys2Proof.Machine
end

