-- ==== Sys2Proof/Safety.lean ====
section
/-! DEFINITION. What a good state and a safe run are, in the terms the statements use. -/

namespace Sys2Proof.Machine

/-- The invariants every command keeps for a layer (10_state.md R33), and that the timing RAM holds
the live entries and no more than MAX_FRAMES (10_state.md R31). -/
structure Track.Ok (maxFrames : Nat) (t : Track) : Prop where
  /-- R33(a). -/
  idle_iff : t.state = .idle ↔ t.count = 0#16
  /-- R33(b). -/
  range : t.count ≠ 0#16 → t.s ≤ t.cur ∧ t.cur ≤ t.e ∧ t.e.toNat ≤ t.count.toNat - 1
  /-- R33(c). -/
  custom_iff : t.isCustom = true ↔ t.speed ≠ 0#32
  /-- R33(d). -/
  completed_mode : t.state = .completed → t.mode = .once ∨ t.mode = .boomerangOnce
  /-- R33(e). -/
  count_le : t.count.toNat ≤ maxFrames
  /-- R31: entries `0 .. count-1` are live. -/
  live : t.count.toNat ≤ t.timing.length
  /-- R31: the RAM has MAX_FRAMES words. -/
  ram : t.timing.length ≤ maxFrames

/-- The machine's invariant: every layer as R33 says, `dirty = 0` between commands
(10_state.md R41), animation memory in its canonical form, and LAYERS and MAX_FRAMES in the ranges
of 00_scope.md R7. -/
structure State.Inv (s : State) : Prop where
  tracks : ∀ t ∈ s.trk, t.Ok s.params.maxFrames
  clean : s.dirty = false
  memory : s.mem.wf = true
  layersRange : Config.layersInRange s.layers
  paramsRange : s.params.inRange

/-- Rows `0 .. count-1` of an animation at `base` are in ANIM_READABLE (20_memory.md R62, R64). -/
def State.RowsReadable (s : State) (base : Word) (count : Half) : Prop :=
  ∀ r j, r < count.toNat → j < 4 → s.readable (rowWord base r j) = true

/-- The host keeps the lifetime contract: the rows of every layer that holds an animation are
readable (20_memory.md R64; 70_reset_and_hazards.md R277). -/
def State.Contract (s : State) : Prop :=
  ∀ t ∈ s.trk, t.count ≠ 0#16 → s.RowsReadable t.base t.count

/-- The rows a START that passes its checks names are readable (20_memory.md R64); no condition on a
START that fails (40_track.md R111) and none on other commands. -/
def RowsNamedReadable (s : State) : Instr → Prop
  | .start ly _ pr base count _ _ =>
    ly < s.layers → startFails s.params.maxFrames pr count = false → s.RowsReadable base count
  | _ => True

/-- The step completes: no model fault, no refusal. -/
def SafeStep (s : State) : Prop := ∃ t, step s = .next t

end Sys2Proof.Machine
end

