-- ==== Sys2Proof/Certificates/Slice0/Obligations.lean ====
section
/-! DEFINITION. The statements about the model, each a proposition `Obligations.<Name>`, and the
words they are written in. A statement names the rules of spec/ it comes from in OBLIGATIONS.json. -/

namespace Sys2Proof.Claims

open Sys2Proof.Machine

/-! ## Words of the statements -/

/-- `t` differs from `s` in layer `ly` at most. -/
def OnlyLayer (ly : Nat) (s t : State) : Prop :=
  t = { s with trk := t.trk } ∧ ∀ L, L ≠ ly → t.trk[L]? = s.trk[L]?

/-- The state with NOW set for the next command. -/
def at_ (now : Word) (s : State) : State := { s with inp := { s.inp with now := now } }

/-- The interval of the frame that layer `L` shows (40_track.md R121). -/
def interval (L : Nat) (tr : Track) : Word :=
  if tr.isCustom then tr.speed else tr.timingAt L tr.cur.toNat

/-- A tick of layer `L` at `now` finds the interval passed (40_track.md R121). -/
abbrev expired (L : Nat) (now : Word) (tr : Track) : Prop := interval L tr ≤ now - tr.lastUpdate

/-- TRACK_TICK of layer `ly` at each of these NOW values in turn. -/
def tickAll (ly : Nat) : List Word → State → Result
  | [], s => .next s
  | now :: nows, s =>
    match exec (.trackTick ly) (at_ now s) with
    | .next t => tickAll ly nows t
    | .fault f => .fault f
    | .refused r => .refused r

/-- Each of these ticks finds the interval of the frame then shown passed. -/
def allExpired (ly : Nat) : List Word → State → Bool
  | [], _ => true
  | now :: nows, s =>
    (match s.trk[ly]? with
      | some tr => decide (interval ly tr ≤ now - tr.lastUpdate)
      | none => true) &&
    match exec (.trackTick ly) (at_ now s) with
    | .next t => allExpired ly nows t
    | _ => false

/-- A layer as START leaves it, playing from the bound its direction begins at (40_track.md R114). -/
structure AtStart (tr : Track) : Prop where
  playing : tr.state = .playing
  valid : tr.count ≠ 0#16
  range : tr.s ≤ tr.e
  outward : tr.isRev = false
  first : tr.cur = if tr.dir = .bwd then tr.e else tr.s

/-- `N = e - s + 1`, the number of frames of the sub-range (40_track.md R129). -/
def frames (tr : Track) : Nat := tr.e.toNat - tr.s.toNat + 1

/-- The index `k` frames from the bound the direction begins at. -/
def fromFirst (tr : Track) (k : Nat) : Nat :=
  if tr.dir = .bwd then tr.e.toNat - k else tr.s.toNat + k

/-- Bit of cell `d` in a packed frame: word `d/32`, bit `31 - d%32` (00_scope.md R11). -/
def frameBit (p : Packed) (d : Nat) : Bool :=
  if d < 32 then p.w0.getLsbD (31 - d)
  else if d < 64 then p.w1.getLsbD (63 - d)
  else p.w2.getLsbD (95 - d)

/-- The cell address names cell `i` of the grid (30_encoding.md R87). -/
def names (cell : CellAddr) (i : Cell) : Prop :=
  match cell with
  | .xy x y => x ≤ 11 ∧ y ≤ 7 ∧ i.val = 12 * y + x
  | .linear n => n ≤ 95 ∧ i.val = n

/-- Cell `j`'s toggle is due (43_ledgrid.md R207). -/
def blinkDue (s : State) (j : Cell) : Prop :=
  s.blinkInterval[j.val] ≠ 0#32 ∧ s.blinkInterval[j.val] ≤ s.inp.now - s.lastToggle[j.val]

/-- READ_REG of register `reg` answers the number `n` and changes nothing else. -/
def reads (s : State) (ly reg : Nat) (index : Word) (n : Nat) : Prop :=
  exec (.readReg ly reg index) s =
    .next { s with responses := s.responses ++ [⟨BitVec.ofNat 32 n, 0#32, 0#32, 0#32⟩] }

/-- A flag as a number. -/
def num (b : Bool) : Nat := if b then 1 else 0

/-- State codes (10_state.md R21). -/
def stateNum : PlayState → Nat
  | .idle => 0
  | .playing => 1
  | .paused => 2
  | .completed => 3

/-- Mode codes (10_state.md R22). -/
def modeNum : Mode → Nat
  | .once => 0
  | .loop => 1
  | .boomerang => 2
  | .boomerangOnce => 3

/-- Rotation codes (10_state.md R36). -/
def rotationNum : Rotation → Nat
  | .deg0 => 0
  | .deg90 => 1
  | .deg180 => 2
  | .deg270 => 3

/-- The OP column of the opcode map (30_encoding.md R85). -/
def opcodeOf : Instr → Nat
  | .nop => 0x00
  | .start _ _ _ _ _ _ _ => 0x01
  | .stop _ => 0x02
  | .trackTick _ => 0x03
  | .setSpeed _ _ => 0x04
  | .pause _ => 0x05
  | .resume _ => 0x06
  | .restoreSpeed _ => 0x07
  | .layersUpdate => 0x10
  | .setLayerInvert _ => 0x11
  | .getFrame _ => 0x12
  | .canvasBegin => 0x20
  | .canvasEnd => 0x21
  | .canvasToFrame => 0x22
  | .canvasLoadFrame _ _ _ => 0x23
  | .canvasSetPixel _ _ _ => 0x24
  | .setCanvasRotation _ => 0x25
  | .setCanvasInvert _ => 0x26
  | .ledSet _ _ => 0x30
  | .ledToggle _ => 0x31
  | .ledBlink _ _ => 0x32
  | .ledNoblink _ => 0x33
  | .ledUpdateBlinks => 0x34
  | .ledShow => 0x35
  | .ledGet _ => 0x36
  | .readReg _ _ _ => 0x40

/-- The opcodes of the table (30_encoding.md R85). -/
def tableOpcodes : List Nat :=
  [0x00, 0x01, 0x02, 0x03, 0x04, 0x05, 0x06, 0x07, 0x10, 0x11, 0x12,
   0x20, 0x21, 0x22, 0x23, 0x24, 0x25, 0x26,
   0x30, 0x31, 0x32, 0x33, 0x34, 0x35, 0x36, 0x40]

/-- The opcodes that are not in the table (30_encoding.md R94). -/
def undefinedOpcode (op : Nat) : Prop :=
  (0x08 ≤ op ∧ op ≤ 0x0F) ∨ (0x13 ≤ op ∧ op ≤ 0x1F) ∨ (0x27 ≤ op ∧ op ≤ 0x2F) ∨
    (0x37 ≤ op ∧ op ≤ 0x3F) ∨ (0x41 ≤ op ∧ op ≤ 0xFF)

/-- The bits a command uses (30_encoding.md R82, R83, R85), and Y only when AM = 0 (R87). -/
def usedBits (op : Nat) (linear : Bool) : Command :=
  match op with
  | 0x01 => ⟨0xFFFC0000#32, 0xFFFFFFFF#32, 0x0000FFFF#32, 0xFFFFFFFF#32⟩
  | 0x02 => ⟨0xFFE00000#32, 0#32, 0#32, 0#32⟩
  | 0x03 => ⟨0xFFE00000#32, 0#32, 0#32, 0#32⟩
  | 0x04 => ⟨0xFFE00000#32, 0xFFFFFFFF#32, 0#32, 0#32⟩
  | 0x05 => ⟨0xFFE00000#32, 0#32, 0#32, 0#32⟩
  | 0x06 => ⟨0xFFE00000#32, 0#32, 0#32, 0#32⟩
  | 0x07 => ⟨0xFFE00000#32, 0#32, 0#32, 0#32⟩
  | 0x11 => ⟨0xFF010000#32, 0#32, 0#32, 0#32⟩
  | 0x12 => ⟨0xFFE00000#32, 0#32, 0#32, 0#32⟩
  | 0x23 => ⟨0xFF000000#32, 0xFFFFFFFF#32, 0xFFFFFFFF#32, 0xFFFFFFFF#32⟩
  | 0x24 => ⟨0xFF01FFFF#32, 0#32, 0#32, 0#32⟩
  | 0x25 => ⟨0xFF000000#32, 0x00000003#32, 0#32, 0#32⟩
  | 0x26 => ⟨0xFF010000#32, 0#32, 0#32, 0#32⟩
  | 0x30 => ⟨if linear then 0xFF03FF00#32 else 0xFF03FFFF#32, 0#32, 0#32, 0#32⟩
  | 0x31 => ⟨if linear then 0xFF02FF00#32 else 0xFF02FFFF#32, 0#32, 0#32, 0#32⟩
  | 0x32 => ⟨if linear then 0xFF02FF00#32 else 0xFF02FFFF#32, 0xFFFFFFFF#32, 0#32, 0#32⟩
  | 0x33 => ⟨if linear then 0xFF02FF00#32 else 0xFF02FFFF#32, 0#32, 0#32, 0#32⟩
  | 0x36 => ⟨if linear then 0xFF02FF00#32 else 0xFF02FFFF#32, 0#32, 0#32, 0#32⟩
  | 0x40 => ⟨0xFFE00000#32, 0x000000FF#32, 0xFFFFFFFF#32, 0#32⟩
  | _ => ⟨0xFF000000#32, 0#32, 0#32, 0#32⟩

/-- Two transactions agree on the bits of a mask. -/
def agreeOn (m c d : Command) : Prop :=
  c.c0 &&& m.c0 = d.c0 &&& m.c0 ∧ c.c1 &&& m.c1 = d.c1 &&& m.c1 ∧
    c.c2 &&& m.c2 = d.c2 &&& m.c2 ∧ c.c3 &&& m.c3 = d.c3 &&& m.c3

/-- Every bit outside the mask is 0. -/
def zeroOutside (m c : Command) : Prop :=
  c.c0 &&& ~~~m.c0 = 0#32 ∧ c.c1 &&& ~~~m.c1 = 0#32 ∧ c.c2 &&& ~~~m.c2 = 0#32 ∧
    c.c3 &&& ~~~m.c3 = 0#32

/-- The transition table of 40_track.md R145: the states layer `L` may be in after a command, from
its state before; `due` says whether a tick of the layer finds its interval passed. -/
def statesAfter (maxFrames L : Nat) (due : Prop) [Decidable due] (before : PlayState) :
    Instr → List PlayState
  | .start ly _ pr _ count _ _ =>
    if ly = L then
      if pr = true ∧ count ≠ 0#16 ∧ count.toNat ≤ maxFrames then [.playing] else [.idle]
    else [before]
  | .stop ly => if ly = L then [.idle] else [before]
  | .trackTick ly =>
    if ly = L ∧ before = .playing ∧ due then [.playing, .completed] else [before]
  | .layersUpdate => if before = .playing ∧ due then [.playing, .completed] else [before]
  | .setSpeed ly ms =>
    if ly = L then
      if ms = 0#32 then (if before = .playing then [.paused] else [before])
      else (if before = .paused then [.playing] else [before])
    else [before]
  | .pause ly => if ly = L ∧ before = .playing then [.paused] else [before]
  | .resume ly => if ly = L ∧ before = .paused then [.playing] else [before]
  | .restoreSpeed ly => if ly = L ∧ before = .paused then [.playing] else [before]
  | _ => [before]

/-- The command is a START or STOP of layer `L` that leaves it in the state `after`: PLAYING or IDLE after
START, IDLE after STOP (40_track.md R146). -/
def startedOrStopped (L : Nat) (after : PlayState) : Instr → Prop
  | .start ly _ _ _ _ _ _ => ly = L ∧ (after = .playing ∨ after = .idle)
  | .stop ly => ly = L ∧ after = .idle
  | _ => False

/-- The command ticks layer `L`. -/
def ticks (L : Nat) : Instr → Prop
  | .trackTick ly => ly = L
  | .layersUpdate => True
  | _ => False

/-- The command is a track command. -/
def isTrackCommand : Instr → Prop
  | .start _ _ _ _ _ _ _ => True
  | .stop _ => True
  | .trackTick _ => True
  | .setSpeed _ _ => True
  | .pause _ => True
  | .resume _ => True
  | .restoreSpeed _ => True
  | _ => False

/-- The command is LED_SET, LED_TOGGLE or LED_BLINK. -/
def isLedWrite : Instr → Prop
  | .ledSet _ _ => True
  | .ledToggle _ => True
  | .ledBlink _ _ => True
  | _ => False

/-- The command returns a response (30_encoding.md R84). -/
def isReadCommand : Instr → Prop
  | .getFrame _ => True
  | .canvasToFrame => True
  | .ledGet _ => True
  | .readReg _ _ _ => True
  | _ => False

/-- The register numbers of the map (10_state.md R44). -/
def mappedRegisters : List Nat :=
  [0x00, 0x01, 0x02, 0x03, 0x04, 0x05, 0x06, 0x07, 0x08, 0x10, 0x11, 0x12, 0x13, 0x14,
   0x15, 0x16, 0x17, 0x18, 0x19, 0x1A, 0x1E, 0x1F]

/-- The block state at its reset values (10_state.md R51). The timing RAM is not in the statement:
its content is unspecified. -/
structure AtReset (s : State) : Prop where
  layers : ∀ tr ∈ s.trk, tr.state = .idle ∧ tr.count = 0#16 ∧ tr.mode = .once ∧ tr.dir = .fwd ∧
    tr.isRev = false ∧ tr.cur = 0#16 ∧ tr.s = 0#16 ∧ tr.e = 0#16 ∧ tr.base = 0#32 ∧
    tr.lastUpdate = 0#32 ∧ tr.speed = 0#32 ∧ tr.isCustom = false
  layerInvert : s.layerInvert = false
  canvas : ∀ d : Cell, s.canvas.getLsbD d.val = false
  rotation : s.rotation = .deg0
  canvasInvert : s.canvasInvert = false
  led : ∀ d : Cell, s.led.getLsbD d.val = false
  blinkInterval : ∀ d : Cell, s.blinkInterval[d.val] = 0#32
  lastToggle : ∀ d : Cell, s.lastToggle[d.val] = 0#32
  dirty : s.dirty = false

end Sys2Proof.Claims

open Sys2Proof Sys2Proof.Machine Sys2Proof.Claims

/-! ## Encoding and fetching -/

/-- 30_encoding.md R99 and one word of each other family (95_test_vectors.md V33, V45, V70),
written out from the encodings. -/
def Obligations.SpecWordsDecodeAndEncode : Prop :=
  (decode ⟨0x012C0000#32, 0x00000100#32, 0x0000000A#32, 0x00050002#32⟩
      = .ok (.start 1 .loop true 0x100#32 10#16 5#16 2#16) ∧
    encode (.start 1 .loop true 0x100#32 10#16 5#16 2#16)
      = ⟨0x012C0000#32, 0x00000100#32, 0x0000000A#32, 0x00050002#32⟩) ∧
  (decode ⟨0x30010B07#32, 0#32, 0#32, 0#32⟩ = .ok (.ledSet (.xy 11 7) true) ∧
    encode (.ledSet (.xy 11 7) true) = ⟨0x30010B07#32, 0#32, 0#32, 0#32⟩) ∧
  (decode ⟨0x31025F00#32, 0#32, 0#32, 0#32⟩ = .ok (.ledToggle (.linear 95)) ∧
    encode (.ledToggle (.linear 95)) = ⟨0x31025F00#32, 0#32, 0#32, 0#32⟩) ∧
  decode ⟨0x11010000#32, 0#32, 0#32, 0#32⟩ = .ok (.setLayerInvert true) ∧
  decode ⟨0x24010C00#32, 0#32, 0#32, 0#32⟩ = .ok (.canvasSetPixel 12 0 true) ∧
  decode ⟨0x40200000#32, 0x00000002#32, 0#32, 0#32⟩ = .ok (.readReg 1 2 0#32)

/-- 30_encoding.md R82, R83, R85: decoding an encoded instruction gives it back, with every operand
at every value its field admits. -/
def Obligations.DecodeOfEncodeIsIdentity : Prop :=
  ∀ i : Instr, i.wellFormed = true → decode (encode i) = .ok i

/-- 30_encoding.md R93, R96: a command means the same whatever its unused bits hold, and the encoder
writes them as 0. -/
def Obligations.UnusedBitsChangeNothing : Prop :=
  (∀ (c d : Command) (s : State), agreeOn (usedBits c.op.toNat c.am) c d →
    runCommand c s = runCommand d s) ∧
  ∀ i : Instr, zeroOutside (usedBits (encode i).op.toNat (encode i).am) (encode i)

/-- 30_encoding.md R94: an undefined opcode changes nothing and answers nothing; the step only takes
the command from the host (the list of host events and the count are the model's: logs 7 to 9). -/
def Obligations.UndefinedOpcodesAreSilentNoOps : Prop :=
  ∀ (s : State) (c : Command) (inp : Inputs) (rest : List HostEvent),
    undefinedOpcode c.op.toNat → s.pending = .command c inp :: rest →
      step s = .next { s with pending := rest, inp := inp, accepted := s.accepted + 1 } ∧
      ∀ u, runCommand c u = exec .nop u

/-- 30_encoding.md R85: OP alone selects the command, as the table says, and exactly the opcodes of the
table have one. -/
def Obligations.OpAloneSelectsTheCommand : Prop :=
  ∀ c : Command,
    (∀ i, decode c = .ok i → c.op.toNat = opcodeOf i) ∧
    ((∃ i, decode c = .ok i) ↔ c.op.toNat ∈ tableOpcodes)

/-- A step runs the instruction that the next command decodes to, in the state in which the command
is taken from the host and its inputs are sampled (the form of the step is the model's: logs 7 to 9). -/
def Obligations.StepRunsTheDecodedInstruction : Prop :=
  ∀ (s : State) (c : Command) (inp : Inputs) (rest : List HostEvent) (i : Instr),
    s.pending = .command c inp :: rest → decode c = .ok i →
      step s = exec i { s with pending := rest, inp := inp, accepted := s.accepted + 1 }

/-- Between commands the host writes and releases words of animation memory, and with nothing to do
the block waits (20_memory.md R64, R70; 70_reset_and_hazards.md R272; log 8). -/
def Obligations.HostEventsBetweenCommands : Prop :=
  ∀ s : State,
    (s.pending = [] → step s = .next s) ∧
    (∀ a w rest, s.pending = .writeWord a w :: rest →
      ∃ t, step s = .next t ∧ t = { s with pending := rest, mem := t.mem } ∧
        ∀ b, t.mem.read b = if b = a.toNat then some w else s.mem.read b) ∧
    (∀ a rest, s.pending = .releaseWord a :: rest →
      ∃ t, step s = .next t ∧ t = { s with pending := rest, mem := t.mem } ∧
        ∀ b, t.mem.read b = if b = a.toNat then none else s.mem.read b)

/-! ## Reset, the invariant, whole-machine frames -/

/-- 10_state.md R51. -/
def Obligations.ResetLeavesTheSpecsValues : Prop := AtReset State.reset

/-- 70_reset_and_hazards.md R270: the reset input puts every element of the block at its reset value,
from any state, reads no memory and writes no sink. -/
def Obligations.ResetInputResetsTheBlock : Prop :=
  ∀ (s : State) (rest : List HostEvent), s.pending = .reset :: rest →
    ∃ t, step s = .next t ∧ AtReset t ∧ t.layers = s.layers ∧
      t = { t with params := s.params, mem := s.mem, inp := s.inp, pending := rest, sink := s.sink,
                   responses := s.responses, accepted := s.accepted }

/-- The reset state meets the invariant (10_state.md R33, R41), for the instance of the parameters that
logs 3 and 4 choose. -/
def Obligations.ResetMeetsTheInvariant : Prop := State.Inv State.reset

/-- 10_state.md R33, R41: every step keeps the invariant: for every layer the relations of R33 and the
bounds of its timing RAM, `dirty = 0`, the canonical form of animation memory (log 1), and LAYERS and
MAX_FRAMES in the ranges of 00_scope.md R7. -/
def Obligations.EveryStepKeepsTheInvariant : Prop :=
  ∀ s t : State, s.Inv → step s = .next t → t.Inv

/-- 00_scope.md R12, 10_state.md R47: no command writes animation memory, the parameters, or what the
host supplies. -/
def Obligations.CommandsWriteNoMemoryAndNoParameter : Prop :=
  ∀ (i : Instr) (s t : State), exec i s = .next t →
    t.mem = s.mem ∧ (∀ a, t.readable a = s.readable a) ∧ t.params = s.params ∧
      t.layers = s.layers ∧ t.inp = s.inp ∧ t.pending = s.pending ∧ t.accepted = s.accepted

/-- 10_state.md R34 to R40, R48: which commands change which field. -/
def Obligations.FieldsChangeOnlyByTheirCommands : Prop :=
  ∀ (i : Instr) (s t : State), exec i s = .next t →
    (t.trk ≠ s.trk → isTrackCommand i ∨ i = .layersUpdate) ∧
    (t.layerInvert ≠ s.layerInvert → ∃ v, i = .setLayerInvert v) ∧
    (t.canvas ≠ s.canvas →
      (∃ w0 w1 w2, i = .canvasLoadFrame w0 w1 w2) ∨ ∃ x y v, i = .canvasSetPixel x y v) ∧
    (t.rotation ≠ s.rotation → ∃ r, i = .setCanvasRotation r) ∧
    (t.canvasInvert ≠ s.canvasInvert → ∃ v, i = .setCanvasInvert v) ∧
    (t.led ≠ s.led → isLedWrite i ∨ i = .ledUpdateBlinks) ∧
    (t.blinkInterval ≠ s.blinkInterval → isLedWrite i ∨ ∃ cell, i = .ledNoblink cell) ∧
    (t.lastToggle ≠ s.lastToggle → (∃ cell rate, i = .ledBlink cell rate) ∨ i = .ledUpdateBlinks) ∧
    (t.dirty ≠ s.dirty → isLedWrite i ∨ i = .ledUpdateBlinks ∨ i = .ledShow)

/-- 30_encoding.md R84: a read command answers once, no other command answers. -/
def Obligations.OnlyReadCommandsRespond : Prop :=
  ∀ (i : Instr) (s t : State), exec i s = .next t →
    (isReadCommand i → ∃ r, t.responses = s.responses ++ [r]) ∧
    (¬ isReadCommand i → t.responses = s.responses)

/-- 20_memory.md R66: a command writes the sink at most once; LAYERS_UPDATE and CANVAS_END always do,
the LED commands that show may, no other command does. -/
def Obligations.SinkWritesAtMostOncePerCommand : Prop :=
  ∀ (i : Instr) (s t : State), exec i s = .next t →
    (t.sink = s.sink ∨ ∃ p, t.sink = s.sink ++ [p]) ∧
    (i = .layersUpdate ∨ i = .canvasEnd → ∃ p, t.sink = s.sink ++ [p]) ∧
    (t.sink ≠ s.sink → i = .layersUpdate ∨ i = .canvasEnd ∨ isLedWrite i ∨
      i = .ledUpdateBlinks ∨ i = .ledShow)

/-- 20_memory.md R64, 60_exceptions.md R250, R252: while the host keeps the lifetime contract every
command completes, whatever its operands, and the contract goes on. -/
def Obligations.NoCommandFaultsUnderTheContract : Prop :=
  ∀ (i : Instr) (s : State), s.Inv → s.Contract → RowsNamedReadable s i →
    ∃ t, exec i s = .next t ∧ t.Inv ∧ t.Contract

/-! ## Track commands -/

/-- 40_track.md R112, R114 (and R110, R113, R115): what a START that passes leaves in its layer, with
the durations as the reads give them; speed and isCustom and every other layer keep their values. -/
def Obligations.StartLoadsTheAnimation : Prop :=
  ∀ (s : State) (ly : Nat) (md : Mode) (base : Word) (count sf ef : Half) (tr : Track),
    s.trk[ly]? = some tr → count ≠ 0#16 → count.toNat ≤ s.params.maxFrames →
    (∀ k, k < count.toNat → s.readable (base + BitVec.ofNat 32 (4 * k + 3)) = true) →
    ∃ t u, exec (.start ly md true base count sf ef) s = .next t ∧ OnlyLayer ly s t ∧
      t.trk[ly]? = some u ∧
      (let f := if sf = 0#16 ∧ ef = 0#16 then 1 else min (max sf.toNat 1) count.toNat
       let g := if sf = 0#16 ∧ ef = 0#16 then count.toNat else min (max ef.toNat 1) count.toNat
       u.s.toNat = min f g - 1 ∧ u.e.toNat = max f g - 1 ∧
       u.dir = (if g < f then .bwd else .fwd) ∧ u.cur = if g < f then u.e else u.s) ∧
      (∀ k, k < count.toNat →
        s.memRead k (base + BitVec.ofNat 32 (4 * k + 3)) = .ok (u.timingAt ly k)) ∧
      (∀ k, count.toNat ≤ k → u.timingAt ly k = tr.timingAt ly k) ∧
      u = { tr with state := .playing, mode := md, dir := u.dir, isRev := false, cur := u.cur, s := u.s,
                    e := u.e, count := count, base := base, lastUpdate := s.inp.now, timing := u.timing }

/-- 40_track.md R111: a START with no reference, no frames or too many frames writes count and state
only, whatever animation memory holds. -/
def Obligations.StartFailsIntoIdle : Prop :=
  ∀ (s : State) (ly : Nat) (md : Mode) (pr : Bool) (base : Word) (count sf ef : Half) (tr : Track),
    s.trk[ly]? = some tr → pr = false ∨ count = 0#16 ∨ s.params.maxFrames < count.toNat →
    ∃ t, exec (.start ly md pr base count sf ef) s = .next t ∧ OnlyLayer ly s t ∧
      t.trk[ly]? = some { tr with count := 0#16, state := .idle }

/-- 60_exceptions.md R252, R254: a START that passes its checks faults on the first duration word
outside ANIM_READABLE, and the fault names its address. -/
def Obligations.StartFaultsOnFirstUnreadableDuration : Prop :=
  ∀ (s : State) (ly : Nat) (md : Mode) (base : Word) (count sf ef : Half) (k : Nat),
    ly < s.layers → count.toNat ≤ s.params.maxFrames → k < count.toNat →
    (∀ j, j < k → s.readable (base + BitVec.ofNat 32 (4 * j + 3)) = true) →
    s.readable (base + BitVec.ofNat 32 (4 * k + 3)) = false →
    exec (.start ly md true base count sf ef) s =
      .fault (.animReadOutsideWindow (base + BitVec.ofNat 32 (4 * k + 3)))

/-- 40_track.md R116. -/
def Obligations.StopReleasesTheLayer : Prop :=
  ∀ (s : State) (ly : Nat), ∃ t, exec (.stop ly) s = .next t ∧ OnlyLayer ly s t ∧
    t.trk[ly]? = (s.trk[ly]?).map fun tr => { tr with count := 0#16, state := .idle }

/-- 40_track.md R120, R121: a tick of a layer that is not playing an animation, or whose interval has
not passed, changes nothing. -/
def Obligations.TickThatIsNotDueChangesNothing : Prop :=
  ∀ (s : State) (ly : Nat) (tr : Track), s.trk[ly]? = some tr →
    tr.state ≠ .playing ∨ tr.count = 0#16 ∨ ¬ expired ly s.inp.now tr →
    exec (.trackTick ly) s = .next s

/-- 40_track.md R123, R124 (and R127, R128): the due tick of a layer in ONCE or LOOP mode. -/
def Obligations.DueTickStepsOnceAndLoop : Prop :=
  ∀ (s : State) (ly : Nat) (tr : Track), s.trk[ly]? = some tr → tr.state = .playing →
    tr.count ≠ 0#16 → expired ly s.inp.now tr → tr.mode = .once ∨ tr.mode = .loop →
    ∃ t, exec (.trackTick ly) s = .next t ∧ OnlyLayer ly s t ∧
      t.trk[ly]? = some (
        if (tr.dir = .fwd ∧ tr.e.toNat ≤ tr.cur.toNat) ∨ (tr.dir = .bwd ∧ tr.cur.toNat ≤ tr.s.toNat) then
          if tr.mode = .once then { tr with state := .completed }
          else { tr with cur := if tr.dir = .fwd then tr.s else tr.e, lastUpdate := s.inp.now }
        else { tr with cur := if tr.dir = .fwd then tr.cur + 1#16 else tr.cur - 1#16,
                       lastUpdate := s.inp.now })

/-- 40_track.md R125 (and R126 to R128): the due tick of a layer in a boomerang mode whose index lies
in its range, in distances from the bound it begins at. -/
def Obligations.DueTickStepsBoomerang : Prop :=
  ∀ (s : State) (ly : Nat) (tr : Track), s.trk[ly]? = some tr → tr.state = .playing →
    tr.count ≠ 0#16 → expired ly s.inp.now tr → tr.mode = .boomerang ∨ tr.mode = .boomerangOnce →
    tr.s ≤ tr.cur → tr.cur ≤ tr.e →
    ∃ t u, exec (.trackTick ly) s = .next t ∧ OnlyLayer ly s t ∧ t.trk[ly]? = some u ∧
      ∀ k, tr.cur.toNat = fromFirst tr k → k ≤ tr.e.toNat - tr.s.toNat →
        (tr.isRev = false ∧ k + 1 < tr.e.toNat - tr.s.toNat →
          u.cur.toNat = fromFirst tr (k + 1) ∧ u = { tr with cur := u.cur, lastUpdate := s.inp.now }) ∧
        (tr.isRev = false ∧ tr.e.toNat - tr.s.toNat ≤ k + 1 →
          u = { tr with cur := if tr.dir = .bwd then tr.s else tr.e, isRev := true,
                        lastUpdate := s.inp.now }) ∧
        (tr.isRev = true ∧ 1 < k →
          u.cur.toNat = fromFirst tr (k - 1) ∧ u = { tr with cur := u.cur, lastUpdate := s.inp.now }) ∧
        (tr.isRev = true ∧ k ≤ 1 ∧ tr.mode = .boomerang →
          u = { tr with cur := if tr.dir = .bwd then tr.e else tr.s, isRev := false,
                        lastUpdate := s.inp.now }) ∧
        (tr.isRev = true ∧ k ≤ 1 ∧ tr.mode = .boomerangOnce → u = { tr with state := .completed })

/-- 40_track.md R129(a): in ONCE mode each due tick but the N-th moves one frame on, the N-th completes
at the far bound, and the layer stays so. -/
def Obligations.OnceCompletesOnDueTickN : Prop :=
  ∀ (s : State) (ly : Nat) (tr : Track) (nows : List Word), s.trk[ly]? = some tr → AtStart tr →
    tr.mode = .once → allExpired ly nows s = true →
    ∃ t u, tickAll ly nows s = .next t ∧ t.trk[ly]? = some u ∧
      (nows.length < frames tr → u.state = .playing ∧ u.cur.toNat = fromFirst tr nows.length) ∧
      (frames tr ≤ nows.length →
        u.state = .completed ∧ u.cur = if tr.dir = .bwd then tr.s else tr.e)

/-- 40_track.md R129(b): LOOP never completes and has period N. -/
def Obligations.LoopHasPeriodN : Prop :=
  ∀ (s : State) (ly : Nat) (tr : Track) (nows : List Word), s.trk[ly]? = some tr → AtStart tr →
    tr.mode = .loop → allExpired ly nows s = true →
    ∃ t u, tickAll ly nows s = .next t ∧ t.trk[ly]? = some u ∧ u.state = .playing ∧
      u.cur.toNat = fromFirst tr (nows.length % frames tr)

/-- 40_track.md R129(c), R126: BOOMERANG on at least two frames never completes, visits
`init, ..., far, ..., init, ...` and has period 2N - 2. -/
def Obligations.BoomerangHasPeriodTwoNMinusTwo : Prop :=
  ∀ (s : State) (ly : Nat) (tr : Track) (nows : List Word), s.trk[ly]? = some tr → AtStart tr →
    tr.mode = .boomerang → 2 ≤ frames tr → allExpired ly nows s = true →
    ∃ t u, tickAll ly nows s = .next t ∧ t.trk[ly]? = some u ∧ u.state = .playing ∧
      (let k := nows.length % (2 * frames tr - 2)
       u.cur.toNat = fromFirst tr (if k < frames tr then k else 2 * frames tr - 2 - k))

/-- 40_track.md R129(d): BOOMERANG_ONCE on at least two frames completes on due tick 2N - 2, one frame
before it would show the first again; a one-frame range completes on due tick 2. -/
def Obligations.BoomerangOnceCompletesOnTheWayBack : Prop :=
  ∀ (s : State) (ly : Nat) (tr : Track) (nows : List Word), s.trk[ly]? = some tr → AtStart tr →
    tr.mode = .boomerangOnce → allExpired ly nows s = true →
    ∃ t u, tickAll ly nows s = .next t ∧ t.trk[ly]? = some u ∧
      (2 ≤ frames tr → nows.length < 2 * frames tr - 2 → u.state = .playing ∧
        u.cur.toNat = fromFirst tr
          (if nows.length < frames tr then nows.length else 2 * frames tr - 2 - nows.length)) ∧
      (2 ≤ frames tr → 2 * frames tr - 2 ≤ nows.length →
        u.state = .completed ∧ u.cur.toNat = fromFirst tr 1) ∧
      (frames tr = 1 → nows.length < 2 → u.state = .playing ∧ u.cur = tr.cur) ∧
      (frames tr = 1 → 2 ≤ nows.length → u.state = .completed ∧ u.cur = tr.cur)

/-- 40_track.md R140. -/
def Obligations.SetSpeedOverridesOrPauses : Prop :=
  ∀ (s : State) (ly : Nat) (ms : Word), ∃ t, exec (.setSpeed ly ms) s = .next t ∧ OnlyLayer ly s t ∧
    t.trk[ly]? = (s.trk[ly]?).map fun tr =>
      if tr.count = 0#16 then tr
      else if ms = 0#32 then
        if tr.state = .playing then { tr with state := .paused } else tr
      else if tr.state = .paused then
        { tr with speed := ms, isCustom := true, state := .playing, lastUpdate := s.inp.now }
      else { tr with speed := ms, isCustom := true }

/-- 40_track.md R142, R143. -/
def Obligations.PauseAndResume : Prop :=
  ∀ (s : State) (ly : Nat),
    (∃ t, exec (.pause ly) s = .next t ∧ OnlyLayer ly s t ∧
      t.trk[ly]? = (s.trk[ly]?).map fun tr =>
        if tr.state = .playing then { tr with state := .paused } else tr) ∧
    (∃ t, exec (.resume ly) s = .next t ∧ OnlyLayer ly s t ∧
      t.trk[ly]? = (s.trk[ly]?).map fun tr =>
        if tr.state = .paused then { tr with state := .playing, lastUpdate := s.inp.now } else tr)

/-- 40_track.md R144. -/
def Obligations.RestoreSpeedClearsTheOverride : Prop :=
  ∀ (s : State) (ly : Nat), ∃ t, exec (.restoreSpeed ly) s = .next t ∧ OnlyLayer ly s t ∧
    t.trk[ly]? = (s.trk[ly]?).map fun tr =>
      if tr.state = .paused then
        { tr with speed := 0#32, isCustom := false, state := .playing, lastUpdate := s.inp.now }
      else { tr with speed := 0#32, isCustom := false }

/-- 40_track.md R145: the transition table, for every command and every layer. -/
def Obligations.TrackStatesFollowTheTable : Prop :=
  ∀ (i : Instr) (s t : State) (L : Nat) (tr : Track), s.Inv → s.trk[L]? = some tr →
    exec i s = .next t → ∃ u, t.trk[L]? = some u ∧
      u.state ∈ statesAfter s.params.maxFrames L (expired L s.inp.now tr) tr.state i

/-- 40_track.md R146: COMPLETED is entered only by a tick of a layer in mode ONCE or BOOMERANG_ONCE, and
left only by START or STOP of the layer. -/
def Obligations.CompletedIsLeftOnlyByStartOrStop : Prop :=
  ∀ (i : Instr) (s t : State) (L : Nat) (tr u : Track), s.trk[L]? = some tr → t.trk[L]? = some u →
    exec i s = .next t →
    (tr.state = .completed → u.state = .completed ∨ startedOrStopped L u.state i) ∧
    (tr.state ≠ .completed → u.state = .completed →
      ticks L i ∧ (tr.mode = .once ∨ tr.mode = .boomerangOnce))

/-- 30_encoding.md R86: commands on a layer that does not exist. -/
def Obligations.AbsentLayersAreIgnored : Prop :=
  ∀ (s : State) (ly : Nat), s.layers ≤ ly →
    (∀ md pr base count sf ef, exec (.start ly md pr base count sf ef) s = .next s) ∧
    exec (.stop ly) s = .next s ∧ exec (.trackTick ly) s = .next s ∧
    (∀ ms, exec (.setSpeed ly ms) s = .next s) ∧ exec (.pause ly) s = .next s ∧
    exec (.resume ly) s = .next s ∧ exec (.restoreSpeed ly) s = .next s ∧
    exec (.getFrame ly) s =
      .next { s with responses := s.responses ++ [⟨0#32, 0#32, 0#32, 0#32⟩] } ∧
    ∀ reg index, reg ≤ 8 → reads s ly reg index 0

/-- 20_memory.md R70(a): what the host writes to animation memory after a START does not reach the
layer's ticks: they read the copied durations. -/
def Obligations.TicksDoNotReadAnimationMemory : Prop :=
  ∀ (s : State) (m : Memory) (ly : Nat), ∃ t, exec (.trackTick ly) s = .next t ∧
    exec (.trackTick ly) { s with mem := m } = .next { t with mem := m }

/-- 41_layerset.md R166: layers are independent. What a command other than START of layer `L` makes of
layer `L` depends on the layer and NOW only, not on other layers, memory or any other state. A START of
layer `L` reads memory: `StartLoadsTheAnimation` and `StartFailsIntoIdle` say what it leaves. -/
def Obligations.LayersAreIndependent : Prop :=
  ∀ (i : Instr) (s s' t t' : State) (L : Nat), s.trk[L]? = s'.trk[L]? → s.inp.now = s'.inp.now →
    (∀ md pr base count sf ef, i ≠ .start L md pr base count sf ef) →
    exec i s = .next t → exec i s' = .next t' → t.trk[L]? = t'.trk[L]?

/-! ## LayerSet commands -/

/-- 41_layerset.md R160 to R162, R165: LAYERS_UPDATE ticks every layer and writes the sink once, with
the OR of the frames the valid layers show after the tick, complemented when layerInvert is set. Words that race a host write are the model's draws (log 7). -/
def Obligations.LayersUpdateWritesTheOrOfTheFrames : Prop :=
  ∀ s : State,
    (∀ L t tr, L < s.layers → exec (.trackTick L) s = .next t → t.trk[L]? = some tr → tr.count ≠ 0#16 →
      ∀ j, j < 3 → s.readable (tr.base + BitVec.ofNat 32 (4 * tr.cur.toNat + j)) = true) →
    ∃ t p, exec .layersUpdate s = .next t ∧
      t = { s with trk := t.trk, sink := s.sink ++ [p] } ∧
      (∀ L, ∃ u, exec (.trackTick L) s = .next u ∧ t.trk[L]? = u.trk[L]?) ∧
      ∀ d : Cell, (frameBit p d.val = true) ↔ (s.layerInvert = true ↔ ¬ ∃ L tr w, t.trk[L]? = some tr ∧
        tr.count ≠ 0#16 ∧
        s.memRead (3 * L + d.val / 32) (tr.base + BitVec.ofNat 32 (4 * tr.cur.toNat + d.val / 32)) = .ok w ∧
        w.getLsbD (31 - d.val % 32) = true)

/-- 41_layerset.md R160, R166: LAYERS_UPDATE is the loop the spec writes, layer by layer, faults
included. -/
def Obligations.LayersUpdateIsTheSpecsLoop : Prop :=
  ∀ s : State, exec .layersUpdate s =
    match s.compositeLoop 0#96 0 s.layers with
    | .error f => .fault f
    | .ok (t, C) => .next (t.sinkWrite (pack (invertIf t.layerInvert C)))

/-- 41_layerset.md R163, 42_canvas.md R189, R190: the three settings write themselves only. -/
def Obligations.SettingsWriteThemselvesOnly : Prop :=
  ∀ (s : State) (v : Bool) (r : Rotation),
    exec (.setLayerInvert v) s = .next { s with layerInvert := v } ∧
    exec (.setCanvasRotation r) s = .next { s with rotation := r } ∧
    exec (.setCanvasInvert v) s = .next { s with canvasInvert := v }

/-- 41_layerset.md R164 (format 30_encoding.md R84): GET_FRAME answers the raw frame the layer shows,
or absent, and changes nothing else; it faults only on a word of that frame outside ANIM_READABLE, and
then on the first. -/
def Obligations.GetFrameAnswersTheShownFrame : Prop :=
  ∀ (s : State) (ly : Nat),
    (∀ tr, s.trk[ly]? = some tr → tr.count ≠ 0#16 →
      (∀ j, j < 3 → s.readable (tr.base + BitVec.ofNat 32 (4 * tr.cur.toNat + j)) = true) →
      ∃ w0 w1 w2, exec (.getFrame ly) s =
          .next { s with responses := s.responses ++ [⟨1#32, w0, w1, w2⟩] } ∧
        s.memRead 0 (tr.base + BitVec.ofNat 32 (4 * tr.cur.toNat + 0)) = .ok w0 ∧
        s.memRead 1 (tr.base + BitVec.ofNat 32 (4 * tr.cur.toNat + 1)) = .ok w1 ∧
        s.memRead 2 (tr.base + BitVec.ofNat 32 (4 * tr.cur.toNat + 2)) = .ok w2) ∧
    (∀ tr j, s.trk[ly]? = some tr → tr.count ≠ 0#16 → j < 3 →
      (∀ k, k < j → s.readable (tr.base + BitVec.ofNat 32 (4 * tr.cur.toNat + k)) = true) →
      s.readable (tr.base + BitVec.ofNat 32 (4 * tr.cur.toNat + j)) = false →
      exec (.getFrame ly) s =
        .fault (.animReadOutsideWindow (tr.base + BitVec.ofNat 32 (4 * tr.cur.toNat + j)))) ∧
    ((∀ tr, s.trk[ly]? = some tr → tr.count = 0#16) → exec (.getFrame ly) s =
      .next { s with responses := s.responses ++ [⟨0#32, 0#32, 0#32, 0#32⟩] })

/-- 20_memory.md R61, 60_exceptions.md R252: a read that races no host write gives the word memory
holds; outside ANIM_READABLE it faults. -/
def Obligations.ReadsGiveTheWordMemoryHolds : Prop :=
  ∀ (s : State) (n : Nat) (a : Word),
    (∀ w, s.mem.read a.toNat = some w → a ∉ s.inp.racing → s.memRead n a = .ok w) ∧
    (s.mem.read a.toNat = none → s.memRead n a = .error (.animReadOutsideWindow a))

/-! ## Canvas commands -/

/-- 00_scope.md R11: the layout of a packed frame, and that packing loses nothing. -/
def Obligations.PackAndUnpackAreInverse : Prop :=
  (∀ F : FrameVec, unpack (pack F) = F) ∧ (∀ p : Packed, pack (unpack p) = p) ∧
  (∀ (F : FrameVec) (d : Cell), frameBit (pack F) d.val = F.getLsbD d.val) ∧
  ∀ (p : Packed) (d : Cell), (unpack p).getLsbD d.val = frameBit p d.val

/-- 42_canvas.md R180, R182, R183, R185, R187: the packer rotates, inverts and packs; CANVAS_TO_FRAME
answers its frame, CANVAS_END writes it to the sink once; nothing else changes. -/
def Obligations.CanvasPackerRotatesThenInverts : Prop :=
  ∀ s : State, ∃ p,
    exec .canvasToFrame s = .next { s with responses := s.responses ++ [⟨1#32, p.w0, p.w1, p.w2⟩] } ∧
    exec .canvasEnd s = .next { s with sink := s.sink ++ [p] } ∧
    ∀ d : Cell, frameBit p d.val = (s.canvasInvert ^^
      match s.rotation with
      | .deg0 => s.canvas.getLsbD d.val
      | .deg180 => s.canvas.getLsbD (95 - d.val)
      | .deg90 =>
        match s.params.rot90Src[d.val] with
        | some c => s.canvas.getLsbD c.val
        | none => false
      | .deg270 =>
        match s.params.rot270Src[d.val] with
        | some c => s.canvas.getLsbD c.val
        | none => false)

/-- 42_canvas.md R186. -/
def Obligations.CanvasSetPixelWritesOneCell : Prop :=
  ∀ (s : State) (x y : Nat) (v : Bool),
    (x ≤ 11 ∧ y ≤ 7 → ∃ t, exec (.canvasSetPixel x y v) s = .next t ∧ t = { s with canvas := t.canvas } ∧
      ∀ d : Cell, t.canvas.getLsbD d.val = if d.val = 12 * y + x then v else s.canvas.getLsbD d.val) ∧
    (¬ (x ≤ 11 ∧ y ≤ 7) → exec (.canvasSetPixel x y v) s = .next s)

/-- 42_canvas.md R188. -/
def Obligations.CanvasLoadFrameUnpacks : Prop :=
  ∀ (s : State) (w0 w1 w2 : Word), ∃ t, exec (.canvasLoadFrame w0 w1 w2) s = .next t ∧
    t = { s with canvas := t.canvas } ∧
    ∀ d : Cell, t.canvas.getLsbD d.val = frameBit ⟨w0, w1, w2⟩ d.val

/-- 42_canvas.md R191. -/
def Obligations.CanvasRoundTripGivesTheFrame : Prop :=
  ∀ (s : State) (w0 w1 w2 : Word), s.rotation = .deg0 → s.canvasInvert = false →
    ∃ t u, exec (.canvasLoadFrame w0 w1 w2) s = .next t ∧ exec .canvasToFrame t = .next u ∧
      u.responses = s.responses ++ [⟨1#32, w0, w1, w2⟩] ∧ u.sink = s.sink

/-- 42_canvas.md R192, on 180°: pack, load the result, pack again gives the first frame back. -/
def Obligations.HalfTurnTwiceIsIdentity : Prop :=
  ∀ (s : State) (w0 w1 w2 : Word), s.rotation = .deg180 → s.canvasInvert = false →
    ∃ a v0 v1 v2 b c d, exec (.canvasLoadFrame w0 w1 w2) s = .next a ∧
      exec .canvasToFrame a = .next b ∧ b.responses = s.responses ++ [⟨1#32, v0, v1, v2⟩] ∧
      exec (.canvasLoadFrame v0 v1 v2) b = .next c ∧ exec .canvasToFrame c = .next d ∧
      d.responses = b.responses ++ [⟨1#32, w0, w1, w2⟩]

/-- 44_system.md R230, 42_canvas.md R184: NOP and CANVAS_BEGIN change nothing. -/
def Obligations.NopAndCanvasBeginChangeNothing : Prop :=
  ∀ s : State, exec .nop s = .next s ∧ exec .canvasBegin s = .next s

/-! ## LED grid commands -/

/-- 43_ledgrid.md R203 (with R201, R202): LED_SET cancels the blink, writes the cell and shows when the
bit changed (or an un-shown change was there). -/
def Obligations.LedSetWritesTheCell : Prop :=
  ∀ (s : State) (cell : CellAddr) (i : Cell) (v : Bool), names cell i →
    ∃ t, exec (.ledSet cell v) s = .next t ∧
      (∀ j : Cell, t.led.getLsbD j.val = if j = i then v else s.led.getLsbD j.val) ∧
      (∀ j : Cell, t.blinkInterval[j.val] = if j = i then 0#32 else s.blinkInterval[j.val]) ∧
      t.sink = (if s.dirty = true ∨ s.led.getLsbD i.val ≠ v then s.sink ++ [pack t.led] else s.sink) ∧
      t = { s with led := t.led, blinkInterval := t.blinkInterval, sink := t.sink, dirty := false }

/-- 43_ledgrid.md R204: LED_TOGGLE cancels the blink, complements the cell and writes the sink once. -/
def Obligations.LedToggleComplementsTheCell : Prop :=
  ∀ (s : State) (cell : CellAddr) (i : Cell), names cell i →
    ∃ t, exec (.ledToggle cell) s = .next t ∧
      (∀ j : Cell, t.led.getLsbD j.val = if j = i then !s.led.getLsbD i.val else s.led.getLsbD j.val) ∧
      (∀ j : Cell, t.blinkInterval[j.val] = if j = i then 0#32 else s.blinkInterval[j.val]) ∧
      t.sink = s.sink ++ [pack t.led] ∧
      t = { s with led := t.led, blinkInterval := t.blinkInterval, sink := t.sink, dirty := false }

/-- 43_ledgrid.md R205, R206: LED_BLINK starts the blink at ON and stamps NOW; with rate 0 it is
LED_NOBLINK, which clears the interval and nothing else. -/
def Obligations.LedBlinkAndNoblink : Prop :=
  ∀ (s : State) (cell : CellAddr) (i : Cell), names cell i →
    (∀ rate, rate ≠ 0#32 → ∃ t, exec (.ledBlink cell rate) s = .next t ∧
      (∀ j : Cell, t.led.getLsbD j.val = if j = i then true else s.led.getLsbD j.val) ∧
      (∀ j : Cell, t.blinkInterval[j.val] = if j = i then rate else s.blinkInterval[j.val]) ∧
      (∀ j : Cell, t.lastToggle[j.val] = if j = i then s.inp.now else s.lastToggle[j.val]) ∧
      t.sink = (if s.dirty = true ∨ s.led.getLsbD i.val = false then s.sink ++ [pack t.led] else s.sink) ∧
      t = { s with led := t.led, blinkInterval := t.blinkInterval, lastToggle := t.lastToggle,
                   sink := t.sink, dirty := false }) ∧
    (∃ t, exec (.ledNoblink cell) s = .next t ∧ exec (.ledBlink cell 0#32) s = .next t ∧
      (∀ j : Cell, t.blinkInterval[j.val] = if j = i then 0#32 else s.blinkInterval[j.val]) ∧
      t = { s with blinkInterval := t.blinkInterval })

/-- 43_ledgrid.md R200: a per-cell LED command on a cell that is not in the grid changes nothing, and
LED_GET answers "not in range". -/
def Obligations.LedCommandsIgnoreCellsOutOfRange : Prop :=
  ∀ (s : State) (cell : CellAddr), (¬ ∃ i, names cell i) →
    (∀ v, exec (.ledSet cell v) s = .next s) ∧ exec (.ledToggle cell) s = .next s ∧
    (∀ rate, exec (.ledBlink cell rate) s = .next s) ∧ exec (.ledNoblink cell) s = .next s ∧
    exec (.ledGet cell) s =
      .next { s with responses := s.responses ++ [⟨0#32, 0#32, 0#32, 0#32⟩] }

/-- 43_ledgrid.md R207: LED_UPDATE_BLINKS toggles every due cell once, stamps it with NOW, and writes the
sink once when any toggled. -/
def Obligations.UpdateBlinksTogglesTheDueCells : Prop :=
  ∀ s : State, ∃ t, exec .ledUpdateBlinks s = .next t ∧
    (∀ j : Cell, blinkDue s j →
      t.led.getLsbD j.val = !s.led.getLsbD j.val ∧ t.lastToggle[j.val] = s.inp.now) ∧
    (∀ j : Cell, ¬ blinkDue s j →
      t.led.getLsbD j.val = s.led.getLsbD j.val ∧ t.lastToggle[j.val] = s.lastToggle[j.val]) ∧
    ((s.dirty = true ∨ ∃ j, blinkDue s j) → t.sink = s.sink ++ [pack t.led]) ∧
    (s.dirty = false → (∀ j, ¬ blinkDue s j) → t.sink = s.sink) ∧
    t = { s with led := t.led, lastToggle := t.lastToggle, sink := t.sink, dirty := false }

/-- 43_ledgrid.md R207, 60_exceptions.md R254: LED_UPDATE_BLINKS is the loop the spec writes, cell by
cell in ascending order, and then the show step. -/
def Obligations.UpdateBlinksIsTheSpecsLoop : Prop :=
  ∀ s : State, exec .ledUpdateBlinks s = .next s.blinkLoop.show

/-- 43_ledgrid.md R212: a cell started blinking at T with rate r is ON, OFF after LED_UPDATE_BLINKS at
T + r, ON after the one at T + 2r, across a wrap of the clock too. -/
def Obligations.BlinkTogglesTwiceInTwoIntervals : Prop :=
  ∀ (s : State) (cell : CellAddr) (i : Cell) (T r : Word), names cell i → r ≠ 0#32 →
    ∃ a b c, exec (.ledBlink cell r) (at_ T s) = .next a ∧
      exec .ledUpdateBlinks (at_ (T + r) a) = .next b ∧
      exec .ledUpdateBlinks (at_ (T + r + r) b) = .next c ∧
      a.led.getLsbD i.val = true ∧ b.led.getLsbD i.val = false ∧ c.led.getLsbD i.val = true

/-- 43_ledgrid.md R202, R208: LED_SHOW writes the whole buffer when dirty and clears dirty. -/
def Obligations.LedShowWritesWhenDirty : Prop :=
  ∀ s : State, ∃ t, exec .ledShow s = .next t ∧
    t.sink = (if s.dirty then s.sink ++ [pack s.led] else s.sink) ∧
    t = { s with sink := t.sink, dirty := false }

/-- 43_ledgrid.md R209: LED_GET answers value, in range, blinking in bits 0, 1, 2. -/
def Obligations.LedGetAnswersTheCell : Prop :=
  ∀ (s : State) (cell : CellAddr) (i : Cell), names cell i →
    exec (.ledGet cell) s = .next { s with responses := s.responses ++
      [⟨BitVec.ofNat 32 (num (s.led.getLsbD i.val) + 2 + 4 * num (s.blinkInterval[i.val] != 0#32)),
        0#32, 0#32, 0#32⟩] }

/-! ## READ_REG -/

/-- 10_state.md R45 (and R44): the per-layer registers. -/
def Obligations.ReadRegLayerRegisters : Prop :=
  ∀ (s : State) (ly : Nat) (index : Word) (tr : Track), s.trk[ly]? = some tr →
    reads s ly 0x00 index (stateNum tr.state + 4 * modeNum tr.mode + 16 * num (tr.dir == .bwd) +
      32 * num tr.isRev + 64 * num tr.isCustom + 128 * num (tr.count != 0#16)) ∧
    reads s ly 0x01 index tr.cur.toNat ∧ reads s ly 0x02 index tr.s.toNat ∧
    reads s ly 0x03 index tr.e.toNat ∧ reads s ly 0x04 index tr.count.toNat ∧
    reads s ly 0x05 index tr.base.toNat ∧ reads s ly 0x06 index tr.lastUpdate.toNat ∧
    reads s ly 0x07 index tr.speed.toNat ∧
    (index.toNat % 2 ^ 16 < tr.count.toNat →
      reads s ly 0x08 index (tr.timingAt ly (index.toNat % 2 ^ 16)).toNat)

/-- 10_state.md R47 (and R44, R46): the registers of the block, whatever the layer field holds. PARAMS
shows the low 16 bits of MAX_FRAMES and the low 4 of LAYERS, which are the parameters themselves in the
ranges of 00_scope.md R7. -/
def Obligations.ReadRegBlockRegisters : Prop :=
  ∀ (s : State) (ly : Nat) (index : Word),
    reads s ly 0x10 index (num s.layerInvert) ∧
    reads s ly 0x11 index (rotationNum s.rotation + 4 * num s.canvasInvert) ∧
    reads s ly 0x12 index (num s.dirty) ∧
    (∀ j : Cell, index.toNat % 2 ^ 8 = j.val →
      reads s ly 0x13 index s.blinkInterval[j.val].toNat ∧
      reads s ly 0x14 index s.lastToggle[j.val].toNat) ∧
    reads s ly 0x15 index (pack s.led).w0.toNat ∧ reads s ly 0x16 index (pack s.led).w1.toNat ∧
    reads s ly 0x17 index (pack s.led).w2.toNat ∧ reads s ly 0x18 index (pack s.canvas).w0.toNat ∧
    reads s ly 0x19 index (pack s.canvas).w1.toNat ∧ reads s ly 0x1A index (pack s.canvas).w2.toNat ∧
    reads s ly 0x1E index (s.params.maxFrames % 2 ^ 16 * 2 ^ 16 + s.layers % 2 ^ 4) ∧
    (Config.layersInRange s.layers → s.params.inRange →
      reads s ly 0x1E index (s.params.maxFrames * 2 ^ 16 + s.layers)) ∧
    reads s ly 0x1F index 0x54464601

/-- 44_system.md R233 (and 10_state.md R44): what reads 0: a layer that does not exist, an index out of
range, a register number that is not in the map. -/
def Obligations.ReadRegOutOfRangeReadsZero : Prop :=
  ∀ (s : State) (ly : Nat) (index : Word),
    (s.layers ≤ ly → ∀ reg, reg ≤ 8 → reads s ly reg index 0) ∧
    (∀ tr, s.trk[ly]? = some tr → tr.count.toNat ≤ index.toNat % 2 ^ 16 → reads s ly 0x08 index 0) ∧
    (96 ≤ index.toNat % 2 ^ 8 → reads s ly 0x13 index 0 ∧ reads s ly 0x14 index 0) ∧
    ∀ reg, reg ∉ mappedRegisters → reads s ly reg index 0
end

