-- ==== Sys2Proof/Laws/Encoding.lean ====
section
/-! SUPPORT. The fields of C0 read back from its parts, and of the operand words. -/

namespace Sys2Proof

section
variable (op : BitVec 8) (ly : Nat) (md : BitVec 2) (pr am v : Bool) (x y : Nat)

/-- OP of a packed C0 (30_encoding.md R82). -/
theorem packC0_op : (packC0 op ly md pr am v x y).extractLsb' 24 8 = op := by
  apply BitVec.eq_of_getLsbD_eq
  intro i hi
  simp only [packC0, BitVec.getLsbD_extractLsb', BitVec.getLsbD_append]
  have h : ∀ k, k ≤ 24 → ¬ 24 + i < k := fun k hk => by omega
  have e : 24 + i - 8 - 8 - 1 - 1 - 1 - 2 - 3 = i := by omega
  rw [if_neg (by omega), if_neg (by omega), if_neg (by omega), if_neg (by omega), if_neg (by omega),
    if_neg (by omega), if_neg (by omega), e]
  simp [hi]

/-- LY of a packed C0. -/
theorem packC0_ly : (packC0 op ly md pr am v x y).extractLsb' 21 3 = BitVec.ofNat 3 ly := by
  apply BitVec.eq_of_getLsbD_eq
  intro i hi
  simp only [packC0, BitVec.getLsbD_extractLsb', BitVec.getLsbD_append]
  have e : 21 + i - 8 - 8 - 1 - 1 - 1 - 2 = i := by omega
  rw [if_neg (by omega), if_neg (by omega), if_neg (by omega), if_neg (by omega), if_neg (by omega),
    if_neg (by omega), if_pos (by omega), e, decide_eq_true hi, Bool.true_and]

/-- MD of a packed C0. -/
theorem packC0_md : (packC0 op ly md pr am v x y).extractLsb' 19 2 = md := by
  apply BitVec.eq_of_getLsbD_eq
  intro i hi
  simp only [packC0, BitVec.getLsbD_extractLsb', BitVec.getLsbD_append]
  have e : 19 + i - 8 - 8 - 1 - 1 - 1 = i := by omega
  rw [if_neg (by omega), if_neg (by omega), if_neg (by omega), if_neg (by omega), if_neg (by omega),
    if_pos (by omega), e, decide_eq_true hi, Bool.true_and]

/-- PR of a packed C0. -/
theorem packC0_pr : (packC0 op ly md pr am v x y).getLsbD 18 = pr := by
  simp only [packC0, BitVec.getLsbD_append]
  rw [if_neg (by omega), if_neg (by omega), if_neg (by omega), if_neg (by omega), if_pos (by omega)]
  simp

/-- AM of a packed C0. -/
theorem packC0_am : (packC0 op ly md pr am v x y).getLsbD 17 = am := by
  simp only [packC0, BitVec.getLsbD_append]
  rw [if_neg (by omega), if_neg (by omega), if_neg (by omega), if_pos (by omega)]
  simp

/-- V of a packed C0. -/
theorem packC0_v : (packC0 op ly md pr am v x y).getLsbD 16 = v := by
  simp only [packC0, BitVec.getLsbD_append]
  rw [if_neg (by omega), if_neg (by omega), if_pos (by omega)]
  simp

/-- X of a packed C0. -/
theorem packC0_x : (packC0 op ly md pr am v x y).extractLsb' 8 8 = BitVec.ofNat 8 x := by
  apply BitVec.eq_of_getLsbD_eq
  intro i hi
  simp only [packC0, BitVec.getLsbD_extractLsb', BitVec.getLsbD_append]
  have e : 8 + i - 8 = i := by omega
  rw [if_neg (by omega), if_pos (by omega), e, decide_eq_true hi, Bool.true_and]

/-- Y of a packed C0. -/
theorem packC0_y : (packC0 op ly md pr am v x y).extractLsb' 0 8 = BitVec.ofNat 8 y := by
  apply BitVec.eq_of_getLsbD_eq
  intro i hi
  simp only [packC0, BitVec.getLsbD_extractLsb', BitVec.getLsbD_append]
  rw [if_pos (by omega), Nat.zero_add, decide_eq_true hi, Bool.true_and]

end

/-- A layer number that fits its field is read back. -/
theorem ofNat3_toNat {ly : Nat} (h : layerFits ly = true) : (BitVec.ofNat 3 ly).toNat = ly := by
  simp only [layerFits, decide_eq_true_eq] at h
  simp only [BitVec.toNat_ofNat]
  omega

/-- A byte that fits its field is read back. -/
theorem ofNat8_toNat {n : Nat} (h : byteFits n = true) : (BitVec.ofNat 8 n).toNat = n := by
  simp only [byteFits, decide_eq_true_eq] at h
  simp only [BitVec.toNat_ofNat]
  omega

/-- The low part of a concatenation. -/
theorem extract_low {m n : Nat} (a : BitVec m) (b : BitVec n) : (a ++ b).extractLsb' 0 n = b := by
  apply BitVec.eq_of_getLsbD_eq
  intro i hi
  simp only [BitVec.getLsbD_extractLsb', BitVec.getLsbD_append]
  rw [if_pos (by omega), Nat.zero_add, decide_eq_true hi, Bool.true_and]

/-- The high part of a concatenation. -/
theorem extract_high {m n : Nat} (a : BitVec m) (b : BitVec n) : (a ++ b).extractLsb' n m = a := by
  apply BitVec.eq_of_getLsbD_eq
  intro i hi
  simp only [BitVec.getLsbD_extractLsb', BitVec.getLsbD_append]
  rw [if_neg (by omega), Nat.add_sub_cancel_left, decide_eq_true hi, Bool.true_and]

/-- A mode's code is read back (10_state.md R22). -/
theorem Mode.ofCode_code (m : Mode) : Mode.ofCode m.code = m := by
  cases m <;> rfl

/-- A rotation's code is read back (10_state.md R36). -/
theorem Rotation.ofCode_code (r : Rotation) : Rotation.ofCode r.code = r := by
  cases r <;> rfl

/-- A C0 that names a cell gives the cell back (30_encoding.md R87). -/
theorem c0Cell_cell (op : BitVec 8) (v : Bool) (cell : CellAddr) (h : cell.fits = true) (a b c : Word) :
    (Command.mk (c0Cell op v cell) a b c).cell = cell := by
  cases cell with
  | xy x y =>
    simp only [CellAddr.fits, Bool.and_eq_true] at h
    simp only [Command.cell, Command.am, Command.x, Command.y, c0Cell, packC0_am, packC0_x, packC0_y,
      ofNat8_toNat h.1, ofNat8_toNat h.2]
    rfl
  | linear i =>
    simp only [CellAddr.fits] at h
    simp only [Command.cell, Command.am, Command.x, Command.y, c0Cell, packC0_am, packC0_x, packC0_y,
      ofNat8_toNat h]
    rfl

/-- V of a C0 that names a cell. -/
theorem c0Cell_v (op : BitVec 8) (v : Bool) (cell : CellAddr) : (c0Cell op v cell).getLsbD 16 = v := by
  cases cell <;> simp only [c0Cell, packC0_v]

/-- Bit `i` of a packed C0 (30_encoding.md R82). -/
theorem packC0_getLsbD (op : BitVec 8) (ly : Nat) (md : BitVec 2) (pr am v : Bool) (x y i : Nat) :
   (packC0 op ly md pr am v x y).getLsbD i =
      if i < 8 then (BitVec.ofNat 8 y).getLsbD i
      else if i < 16 then (BitVec.ofNat 8 x).getLsbD (i - 8)
      else if i < 17 then v && decide (i = 16)
      else if i < 18 then am && decide (i = 17)
      else if i < 19 then pr && decide (i = 18)
      else if i < 21 then md.getLsbD (i - 19)
      else if i < 24 then (BitVec.ofNat 3 ly).getLsbD (i - 21)
      else op.getLsbD (i - 24) := by
  simp only [packC0, BitVec.getLsbD_append]
  by_cases h0 : i < 8
  · simp [h0]
  by_cases h1 : i < 16
  · simp [h0, h1, show i - 8 < 8 by omega]
  by_cases h2 : i < 17
  · have : i = 16 := by omega
    subst this; simp
  by_cases h3 : i < 18
  · have : i = 17 := by omega
    subst this; simp
  by_cases h4 : i < 19
  · have : i = 18 := by omega
    subst this; simp
  rw [if_neg h0, if_neg (by omega), if_neg (by omega), if_neg (by omega), if_neg (by omega),
    if_neg h0, if_neg h1, if_neg h2, if_neg h3, if_neg h4]
  have e1 : i - 8 - 8 - 1 - 1 - 1 = i - 19 := by omega
  have e2 : i - 19 - 2 = i - 21 := by omega
  have e3 : i - 21-3 = i - 24 := by omega
  rw [e1, e2, e3]
  by_cases h5 : i < 21
  · rw [if_pos h5, if_pos (by omega)]
  rw [if_neg h5, if_neg (by omega)]
  by_cases h6 : i < 24
  · rw [if_pos h6, if_pos (by omega)]
  rw [if_neg h6, if_neg (by omega)]

/-- The bits of a field that a mask holds agree where the masked words do. -/
theorem extract_of_and_eq {m x y : Word} (h : x &&& m = y &&& m) (lo len : Nat)
    (hm : ∀ i, i < len → m.getLsbD (lo + i) = true) : x.extractLsb' lo len = y.extractLsb' lo len := by
  apply BitVec.eq_of_getLsbD_eq
  intro i hi
  have := congrArg (fun z => z.getLsbD (lo + i)) h
  simp only [BitVec.getLsbD_and, hm i hi, Bool.and_true] at this
  simp only [BitVec.getLsbD_extractLsb', this]

/-- One bit that a mask holds agrees where the masked words do. -/
theorem getLsbD_of_and_eq {m x y : Word} (h : x &&& m = y &&& m) (lo : Nat)
    (hm : m.getLsbD lo = true) : x.getLsbD lo = y.getLsbD lo := by
  have := congrArg (fun z => z.getLsbD lo) h
  simpa only [BitVec.getLsbD_and, hm, Bool.and_true] using this

end Sys2Proof
end

