-- ==== Sys2Proof/Laws/Frame.lean ====
section
/-! SUPPORT. What the frame operations give, bit by bit. -/

namespace Sys2Proof.Machine

/-- Bit `i` of the vector made from `f`. -/
@[simp] theorem getLsbD_bitsOf (n : Nat) (f : Nat → Bool) (i : Nat) :
    (bitsOf n f).getLsbD i = (decide (i < n) && f i) := by
  induction n with
  | zero => simp [bitsOf]
  | succ n ih =>
    simp only [bitsOf, BitVec.getLsbD_cons, ih]
    by_cases h : i = n
    · simp [h]
    · have : i < n + 1 ↔ i < n := by omega
      simp [h, this]

/-- Bit `b` of word `k` of a packed frame (00_scope.md R11). -/
theorem getLsbD_packWord (F : FrameVec) (k b : Nat) :
    (packWord F k).getLsbD b = (decide (b < 32) && F.getLsbD (32 * k + 31 - b)) := by
  simp [packWord]

/-- Cell `i` of an unpacked frame (00_scope.md R11). -/
theorem getLsbD_unpack (p : Packed) (i : Nat) :
    (unpack p).getLsbD i = (decide (i < 96) && (p.word (i / 32)).getLsbD (31 - i % 32)) := by
  simp [unpack]

/-- Word `k` of a packed frame. -/
theorem pack_word (F : FrameVec) (k : Nat) (h : k < 3) : (pack F).word k = packWord F k := by
  match k, h with
  | 0, _ => rfl
  | 1, _ => rfl
  | 2, _ => rfl

/-- Two frame vectors with the same cells are equal. -/
theorem frame_ext (F G : FrameVec) (h : ∀ i : Cell, F.getLsbD i.val = G.getLsbD i.val) : F = G :=
  BitVec.eq_of_getLsbD_eq fun i hi => h ⟨i, hi⟩

/-- Cell `i` of the rotated canvas. -/
theorem getLsbD_rotated (p : Params) (rot : Rotation) (canvas : FrameVec) (i : Nat) :
    (rotated p rot canvas).getLsbD i = (decide (i < 96) && rotatedCell p rot canvas i) := by
  simp [rotated]

/-- Every cell of `ONES96` is 1. -/
theorem getLsbD_ones96 (i : Nat) : ones96.getLsbD i = decide (i < 96) := by
  rw [ones96, BitVec.getLsbD_allOnes]

/-- Cell `i` after the optional complement. -/
theorem getLsbD_invertIf (inv : Bool) (F : FrameVec) (i : Nat) :
    (invertIf inv F).getLsbD i = (decide (i < 96) && (F.getLsbD i ^^ inv)) := by
  by_cases h : i < 96
  · cases inv <;> simp only [invertIf, if_true, Bool.false_eq_true, if_false, BitVec.getLsbD_xor,
      getLsbD_ones96, h, decide_true, Bool.true_and, Bool.xor_false]
  · rw [BitVec.getLsbD_of_ge _ _ (Nat.le_of_not_lt h)]
    simp [h]

/-- Cell `j` after a write of cell `i`. -/
theorem getLsbD_setCell (F : FrameVec) (i : Cell) (v : Bool) (j : Nat) :
    (setCell F i v).getLsbD j = if j = i.val then v else F.getLsbD j := by
  simp only [setCell, getLsbD_bitsOf]
  by_cases h : j = i.val
  · simp [h]
  · by_cases hj : j < 96
    · simp [h, hj]
    · simp [h, hj, BitVec.getLsbD_of_ge _ _ (Nat.le_of_not_lt hj)]

end Sys2Proof.Machine
end

