-- ==== Sys2Proof/Laws/Operands.lean ====
section
/-! SUPPORT. What the START range and the cell selection give. -/

namespace Sys2Proof.Machine

/-- A START range lies inside the animation, lower end first (40_track.md R112, R114). -/
theorem startRange_bounds (count sf ef : Half) (hc : count ≠ 0#16) :
   (startRange count sf ef).s ≤ (startRange count sf ef).e ∧ (startRange count sf ef).e.toNat ≤ count.toNat - 1 := by
  have hc' : 0 < count.toNat := by
    rcases Nat.eq_zero_or_pos count.toNat with h | h
    · exact absurd (BitVec.eq_of_toNat_eq (by simpa using h)) hc
    · exact h
  have hcl := count.isLt
  have hse : ∀ a b, startEnds count sf ef = (a, b) → 1 ≤ a ∧ a ≤ count.toNat ∧ 1 ≤ b ∧ b ≤ count.toNat := by
    intro a b h
    unfold startEnds clamp at h
    split at h <;> (simp only [Prod.mk.injEq] at h; obtain ⟨rfl, rfl⟩ := h; omega)
  unfold startRange
  generalize hg : startEnds count sf ef = p at *
  obtain ⟨a, b⟩ := p
  obtain ⟨h1,h2,h3,h4⟩ := hse a b rfl
  simp only
  split
  · simp only [BitVec.le_def, BitVec.toNat_ofNat]; omega
  · simp only [BitVec.le_def, BitVec.toNat_ofNat]; omega

/-- The START range in numbers: both ends, and backward when the second endpoint is the smaller
(40_track.md R112, R114). -/
theorem startRange_values (count sf ef : Half) (hc : count ≠ 0#16) :
  let f := if sf = 0#16 ∧ ef = 0#16 then 1 else min (max sf.toNat 1) count.toNat
  let g := if sf = 0#16 ∧ ef = 0#16 then count.toNat else min (max ef.toNat 1) count.toNat
  (startRange count sf ef).s.toNat = min f g - 1 ∧ (startRange count sf ef).e.toNat = max f g - 1 ∧
     (startRange count sf ef).dir = if g < f then .bwd else .fwd := by
  have hc' : 0 < count.toNat := by
    rcases Nat.eq_zero_or_pos count.toNat with h | h
    · exact absurd (BitVec.eq_of_toNat_eq (by simpa using h)) hc
    · exact h
  have hcl := count.isLt
  intro f g
  have hfg : startEnds count sf ef = (f, g) := by
    unfold startEnds clamp; simp only [f, g]; split <;> rfl
  have hf : 1 ≤ f ∧ f ≤ count.toNat := by simp only [f]; split <;> omega
  have hg : 1 ≤ g ∧ g ≤ count.toNat := by simp only [g]; split <;> omega
  clear_value f g
  unfold startRange
  rw [hfg]
  simp only
  by_cases h : g < f
  · rw [if_pos h, if_pos (by omega)]
    refine ⟨?_, ?_, rfl⟩ <;> simp only [BitVec.toNat_ofNat] <;> omega
  · rw [if_neg h, if_neg (by omega)]
    refine ⟨?_, ?_, rfl⟩ <;> simp only [BitVec.toNat_ofNat] <;> omega

/-- `(x, y)` in the grid selects cell `12*y + x` (30_encoding.md R87). -/
theorem gridCell_in {x y : Nat} (h : x ≤ 11 ∧ y ≤ 7) : gridCell x y = some ⟨12 * y + x, by omega⟩ := by
  simp only [gridCell, h, and_self, dite_true]

/-- `(x, y)` outside the grid selects nothing (30_encoding.md R87). -/
theorem gridCell_out {x y : Nat} (h : ¬ (x ≤ 11 ∧ y ≤ 7)) : gridCell x y = none := by
  simp only [gridCell, h, dite_false]

/-- A linear index in the grid selects itself (30_encoding.md R87). -/
theorem linearCell_in {n : Nat} (h : n ≤ 95) : linearCell n = some ⟨n, by omega⟩ := by
  simp only [linearCell, h, dite_true]

/-- A linear index outside the grid selects nothing (30_encoding.md R87). -/
theorem linearCell_out {n : Nat} (h : ¬ n ≤ 95) : linearCell n = none := by
  simp only [linearCell, h, dite_false]

end Sys2Proof.Machine
end

