-- ==== Sys2Proof/Laws/State.lean ====
section
/-! SUPPORT. One lemma per field of State per update: what the update leaves of the field, each true
by unfolding once, so that no later proof unfolds a record update. -/

namespace Sys2Proof.Machine

variable (s : State)

/-! ## onTrack -/

@[simp] theorem State.onTrack_trk (ly : Nat) (f : Track → Track) : (s.onTrack ly f).trk = s.trk.modify ly f := rfl
@[simp] theorem State.onTrack_layerInvert (ly : Nat) (f : Track → Track) : (s.onTrack ly f).layerInvert = s.layerInvert := rfl
@[simp] theorem State.onTrack_canvas (ly : Nat) (f : Track → Track) : (s.onTrack ly f).canvas = s.canvas := rfl
@[simp] theorem State.onTrack_rotation (ly : Nat) (f : Track → Track) : (s.onTrack ly f).rotation = s.rotation := rfl
@[simp] theorem State.onTrack_canvasInvert (ly : Nat) (f : Track → Track) : (s.onTrack ly f).canvasInvert = s.canvasInvert := rfl
@[simp] theorem State.onTrack_led (ly : Nat) (f : Track → Track) : (s.onTrack ly f).led = s.led := rfl
@[simp] theorem State.onTrack_blinkInterval (ly : Nat) (f : Track → Track) : (s.onTrack ly f).blinkInterval = s.blinkInterval := rfl
@[simp] theorem State.onTrack_lastToggle (ly : Nat) (f : Track → Track) : (s.onTrack ly f).lastToggle = s.lastToggle := rfl
@[simp] theorem State.onTrack_dirty (ly : Nat) (f : Track → Track) : (s.onTrack ly f).dirty = s.dirty := rfl
@[simp] theorem State.onTrack_params (ly : Nat) (f : Track → Track) : (s.onTrack ly f).params = s.params := rfl
@[simp] theorem State.onTrack_mem (ly : Nat) (f : Track → Track) : (s.onTrack ly f).mem = s.mem := rfl
@[simp] theorem State.onTrack_inp (ly : Nat) (f : Track → Track) : (s.onTrack ly f).inp = s.inp := rfl
@[simp] theorem State.onTrack_pending (ly : Nat) (f : Track → Track) : (s.onTrack ly f).pending = s.pending := rfl
@[simp] theorem State.onTrack_sink (ly : Nat) (f : Track → Track) : (s.onTrack ly f).sink = s.sink := rfl
@[simp] theorem State.onTrack_responses (ly : Nat) (f : Track → Track) : (s.onTrack ly f).responses = s.responses := rfl
@[simp] theorem State.onTrack_accepted (ly : Nat) (f : Track → Track) : (s.onTrack ly f).accepted = s.accepted := rfl

/-! ## sinkWrite -/

@[simp] theorem State.sinkWrite_trk (p : Packed) : (s.sinkWrite p).trk = s.trk := rfl
@[simp] theorem State.sinkWrite_layerInvert (p : Packed) : (s.sinkWrite p).layerInvert = s.layerInvert := rfl
@[simp] theorem State.sinkWrite_canvas (p : Packed) : (s.sinkWrite p).canvas = s.canvas := rfl
@[simp] theorem State.sinkWrite_rotation (p : Packed) : (s.sinkWrite p).rotation = s.rotation := rfl
@[simp] theorem State.sinkWrite_canvasInvert (p : Packed) : (s.sinkWrite p).canvasInvert = s.canvasInvert := rfl
@[simp] theorem State.sinkWrite_led (p : Packed) : (s.sinkWrite p).led = s.led := rfl
@[simp] theorem State.sinkWrite_blinkInterval (p : Packed) : (s.sinkWrite p).blinkInterval = s.blinkInterval := rfl
@[simp] theorem State.sinkWrite_lastToggle (p : Packed) : (s.sinkWrite p).lastToggle = s.lastToggle := rfl
@[simp] theorem State.sinkWrite_dirty (p : Packed) : (s.sinkWrite p).dirty = s.dirty := rfl
@[simp] theorem State.sinkWrite_params (p : Packed) : (s.sinkWrite p).params = s.params := rfl
@[simp] theorem State.sinkWrite_mem (p : Packed) : (s.sinkWrite p).mem = s.mem := rfl
@[simp] theorem State.sinkWrite_inp (p : Packed) : (s.sinkWrite p).inp = s.inp := rfl
@[simp] theorem State.sinkWrite_pending (p : Packed) : (s.sinkWrite p).pending = s.pending := rfl
@[simp] theorem State.sinkWrite_sink (p : Packed) : (s.sinkWrite p).sink = s.sink ++ [p] := rfl
@[simp] theorem State.sinkWrite_responses (p : Packed) : (s.sinkWrite p).responses = s.responses := rfl
@[simp] theorem State.sinkWrite_accepted (p : Packed) : (s.sinkWrite p).accepted = s.accepted := rfl

/-! ## respond -/

@[simp] theorem State.respond_trk (r : Response) : (s.respond r).trk = s.trk := rfl
@[simp] theorem State.respond_layerInvert (r : Response) : (s.respond r).layerInvert = s.layerInvert := rfl
@[simp] theorem State.respond_canvas (r : Response) : (s.respond r).canvas = s.canvas := rfl
@[simp] theorem State.respond_rotation (r : Response) : (s.respond r).rotation = s.rotation := rfl
@[simp] theorem State.respond_canvasInvert (r : Response) : (s.respond r).canvasInvert = s.canvasInvert := rfl
@[simp] theorem State.respond_led (r : Response) : (s.respond r).led = s.led := rfl
@[simp] theorem State.respond_blinkInterval (r : Response) : (s.respond r).blinkInterval = s.blinkInterval := rfl
@[simp] theorem State.respond_lastToggle (r : Response) : (s.respond r).lastToggle = s.lastToggle := rfl
@[simp] theorem State.respond_dirty (r : Response) : (s.respond r).dirty = s.dirty := rfl
@[simp] theorem State.respond_params (r : Response) : (s.respond r).params = s.params := rfl
@[simp] theorem State.respond_mem (r : Response) : (s.respond r).mem = s.mem := rfl
@[simp] theorem State.respond_inp (r : Response) : (s.respond r).inp = s.inp := rfl
@[simp] theorem State.respond_pending (r : Response) : (s.respond r).pending = s.pending := rfl
@[simp] theorem State.respond_sink (r : Response) : (s.respond r).sink = s.sink := rfl
@[simp] theorem State.respond_responses (r : Response) : (s.respond r).responses = s.responses ++ [r] := rfl
@[simp] theorem State.respond_accepted (r : Response) : (s.respond r).accepted = s.accepted := rfl

/-! ## setInterval -/

@[simp] theorem State.setInterval_trk (i : Cell) (r : Word) : (s.setInterval i r).trk = s.trk := rfl
@[simp] theorem State.setInterval_layerInvert (i : Cell) (r : Word) : (s.setInterval i r).layerInvert = s.layerInvert := rfl
@[simp] theorem State.setInterval_canvas (i : Cell) (r : Word) : (s.setInterval i r).canvas = s.canvas := rfl
@[simp] theorem State.setInterval_rotation (i : Cell) (r : Word) : (s.setInterval i r).rotation = s.rotation := rfl
@[simp] theorem State.setInterval_canvasInvert (i : Cell) (r : Word) : (s.setInterval i r).canvasInvert = s.canvasInvert := rfl
@[simp] theorem State.setInterval_led (i : Cell) (r : Word) : (s.setInterval i r).led = s.led := rfl
@[simp] theorem State.setInterval_blinkInterval (i : Cell) (r : Word) : (s.setInterval i r).blinkInterval = s.blinkInterval.set i.val r := rfl
@[simp] theorem State.setInterval_lastToggle (i : Cell) (r : Word) : (s.setInterval i r).lastToggle = s.lastToggle := rfl
@[simp] theorem State.setInterval_dirty (i : Cell) (r : Word) : (s.setInterval i r).dirty = s.dirty := rfl
@[simp] theorem State.setInterval_params (i : Cell) (r : Word) : (s.setInterval i r).params = s.params := rfl
@[simp] theorem State.setInterval_mem (i : Cell) (r : Word) : (s.setInterval i r).mem = s.mem := rfl
@[simp] theorem State.setInterval_inp (i : Cell) (r : Word) : (s.setInterval i r).inp = s.inp := rfl
@[simp] theorem State.setInterval_pending (i : Cell) (r : Word) : (s.setInterval i r).pending = s.pending := rfl
@[simp] theorem State.setInterval_sink (i : Cell) (r : Word) : (s.setInterval i r).sink = s.sink := rfl
@[simp] theorem State.setInterval_responses (i : Cell) (r : Word) : (s.setInterval i r).responses = s.responses := rfl
@[simp] theorem State.setInterval_accepted (i : Cell) (r : Word) : (s.setInterval i r).accepted = s.accepted := rfl

/-! ## setLastToggle -/

@[simp] theorem State.setLastToggle_trk (i : Cell) (w : Word) : (s.setLastToggle i w).trk = s.trk := rfl
@[simp] theorem State.setLastToggle_layerInvert (i : Cell) (w : Word) : (s.setLastToggle i w).layerInvert = s.layerInvert := rfl
@[simp] theorem State.setLastToggle_canvas (i : Cell) (w : Word) : (s.setLastToggle i w).canvas = s.canvas := rfl
@[simp] theorem State.setLastToggle_rotation (i : Cell) (w : Word) : (s.setLastToggle i w).rotation = s.rotation := rfl
@[simp] theorem State.setLastToggle_canvasInvert (i : Cell) (w : Word) : (s.setLastToggle i w).canvasInvert = s.canvasInvert := rfl
@[simp] theorem State.setLastToggle_led (i : Cell) (w : Word) : (s.setLastToggle i w).led = s.led := rfl
@[simp] theorem State.setLastToggle_blinkInterval (i : Cell) (w : Word) : (s.setLastToggle i w).blinkInterval = s.blinkInterval := rfl
@[simp] theorem State.setLastToggle_lastToggle (i : Cell) (w : Word) : (s.setLastToggle i w).lastToggle = s.lastToggle.set i.val w := rfl
@[simp] theorem State.setLastToggle_dirty (i : Cell) (w : Word) : (s.setLastToggle i w).dirty = s.dirty := rfl
@[simp] theorem State.setLastToggle_params (i : Cell) (w : Word) : (s.setLastToggle i w).params = s.params := rfl
@[simp] theorem State.setLastToggle_mem (i : Cell) (w : Word) : (s.setLastToggle i w).mem = s.mem := rfl
@[simp] theorem State.setLastToggle_inp (i : Cell) (w : Word) : (s.setLastToggle i w).inp = s.inp := rfl
@[simp] theorem State.setLastToggle_pending (i : Cell) (w : Word) : (s.setLastToggle i w).pending = s.pending := rfl
@[simp] theorem State.setLastToggle_sink (i : Cell) (w : Word) : (s.setLastToggle i w).sink = s.sink := rfl
@[simp] theorem State.setLastToggle_responses (i : Cell) (w : Word) : (s.setLastToggle i w).responses = s.responses := rfl
@[simp] theorem State.setLastToggle_accepted (i : Cell) (w : Word) : (s.setLastToggle i w).accepted = s.accepted := rfl

/-! ## accept -/

@[simp] theorem State.accept_trk (inp : Inputs) : (s.accept inp).trk = s.trk := rfl
@[simp] theorem State.accept_layerInvert (inp : Inputs) : (s.accept inp).layerInvert = s.layerInvert := rfl
@[simp] theorem State.accept_canvas (inp : Inputs) : (s.accept inp).canvas = s.canvas := rfl
@[simp] theorem State.accept_rotation (inp : Inputs) : (s.accept inp).rotation = s.rotation := rfl
@[simp] theorem State.accept_canvasInvert (inp : Inputs) : (s.accept inp).canvasInvert = s.canvasInvert := rfl
@[simp] theorem State.accept_led (inp : Inputs) : (s.accept inp).led = s.led := rfl
@[simp] theorem State.accept_blinkInterval (inp : Inputs) : (s.accept inp).blinkInterval = s.blinkInterval := rfl
@[simp] theorem State.accept_lastToggle (inp : Inputs) : (s.accept inp).lastToggle = s.lastToggle := rfl
@[simp] theorem State.accept_dirty (inp : Inputs) : (s.accept inp).dirty = s.dirty := rfl
@[simp] theorem State.accept_params (inp : Inputs) : (s.accept inp).params = s.params := rfl
@[simp] theorem State.accept_mem (inp : Inputs) : (s.accept inp).mem = s.mem := rfl
@[simp] theorem State.accept_inp (inp : Inputs) : (s.accept inp).inp = inp := rfl
@[simp] theorem State.accept_pending (inp : Inputs) : (s.accept inp).pending = s.pending := rfl
@[simp] theorem State.accept_sink (inp : Inputs) : (s.accept inp).sink = s.sink := rfl
@[simp] theorem State.accept_responses (inp : Inputs) : (s.accept inp).responses = s.responses := rfl
@[simp] theorem State.accept_accepted (inp : Inputs) : (s.accept inp).accepted = s.accepted + 1 := rfl

/-! ## taken -/

@[simp] theorem State.taken_trk (rest : List HostEvent) : (s.taken rest).trk = s.trk := rfl
@[simp] theorem State.taken_layerInvert (rest : List HostEvent) : (s.taken rest).layerInvert = s.layerInvert := rfl
@[simp] theorem State.taken_canvas (rest : List HostEvent) : (s.taken rest).canvas = s.canvas := rfl
@[simp] theorem State.taken_rotation (rest : List HostEvent) : (s.taken rest).rotation = s.rotation := rfl
@[simp] theorem State.taken_canvasInvert (rest : List HostEvent) : (s.taken rest).canvasInvert = s.canvasInvert := rfl
@[simp] theorem State.taken_led (rest : List HostEvent) : (s.taken rest).led = s.led := rfl
@[simp] theorem State.taken_blinkInterval (rest : List HostEvent) : (s.taken rest).blinkInterval = s.blinkInterval := rfl
@[simp] theorem State.taken_lastToggle (rest : List HostEvent) : (s.taken rest).lastToggle = s.lastToggle := rfl
@[simp] theorem State.taken_dirty (rest : List HostEvent) : (s.taken rest).dirty = s.dirty := rfl
@[simp] theorem State.taken_params (rest : List HostEvent) : (s.taken rest).params = s.params := rfl
@[simp] theorem State.taken_mem (rest : List HostEvent) : (s.taken rest).mem = s.mem := rfl
@[simp] theorem State.taken_inp (rest : List HostEvent) : (s.taken rest).inp = s.inp := rfl
@[simp] theorem State.taken_pending (rest : List HostEvent) : (s.taken rest).pending = rest := rfl
@[simp] theorem State.taken_sink (rest : List HostEvent) : (s.taken rest).sink = s.sink := rfl
@[simp] theorem State.taken_responses (rest : List HostEvent) : (s.taken rest).responses = s.responses := rfl
@[simp] theorem State.taken_accepted (rest : List HostEvent) : (s.taken rest).accepted = s.accepted := rfl

/-! ## hostWrite -/

@[simp] theorem State.hostWrite_trk (a w : Word) : (s.hostWrite a w).trk = s.trk := rfl
@[simp] theorem State.hostWrite_layerInvert (a w : Word) : (s.hostWrite a w).layerInvert = s.layerInvert := rfl
@[simp] theorem State.hostWrite_canvas (a w : Word) : (s.hostWrite a w).canvas = s.canvas := rfl
@[simp] theorem State.hostWrite_rotation (a w : Word) : (s.hostWrite a w).rotation = s.rotation := rfl
@[simp] theorem State.hostWrite_canvasInvert (a w : Word) : (s.hostWrite a w).canvasInvert = s.canvasInvert := rfl
@[simp] theorem State.hostWrite_led (a w : Word) : (s.hostWrite a w).led = s.led := rfl
@[simp] theorem State.hostWrite_blinkInterval (a w : Word) : (s.hostWrite a w).blinkInterval = s.blinkInterval := rfl
@[simp] theorem State.hostWrite_lastToggle (a w : Word) : (s.hostWrite a w).lastToggle = s.lastToggle := rfl
@[simp] theorem State.hostWrite_dirty (a w : Word) : (s.hostWrite a w).dirty = s.dirty := rfl
@[simp] theorem State.hostWrite_params (a w : Word) : (s.hostWrite a w).params = s.params := rfl
@[simp] theorem State.hostWrite_mem (a w : Word) : (s.hostWrite a w).mem = s.mem.write a.toNat w := rfl
@[simp] theorem State.hostWrite_inp (a w : Word) : (s.hostWrite a w).inp = s.inp := rfl
@[simp] theorem State.hostWrite_pending (a w : Word) : (s.hostWrite a w).pending = s.pending := rfl
@[simp] theorem State.hostWrite_sink (a w : Word) : (s.hostWrite a w).sink = s.sink := rfl
@[simp] theorem State.hostWrite_responses (a w : Word) : (s.hostWrite a w).responses = s.responses := rfl
@[simp] theorem State.hostWrite_accepted (a w : Word) : (s.hostWrite a w).accepted = s.accepted := rfl

/-! ## hostRelease -/

@[simp] theorem State.hostRelease_trk (a : Word) : (s.hostRelease a).trk = s.trk := rfl
@[simp] theorem State.hostRelease_layerInvert (a : Word) : (s.hostRelease a).layerInvert = s.layerInvert := rfl
@[simp] theorem State.hostRelease_canvas (a : Word) : (s.hostRelease a).canvas = s.canvas := rfl
@[simp] theorem State.hostRelease_rotation (a : Word) : (s.hostRelease a).rotation = s.rotation := rfl
@[simp] theorem State.hostRelease_canvasInvert (a : Word) : (s.hostRelease a).canvasInvert = s.canvasInvert := rfl
@[simp] theorem State.hostRelease_led (a : Word) : (s.hostRelease a).led = s.led := rfl
@[simp] theorem State.hostRelease_blinkInterval (a : Word) : (s.hostRelease a).blinkInterval = s.blinkInterval := rfl
@[simp] theorem State.hostRelease_lastToggle (a : Word) : (s.hostRelease a).lastToggle = s.lastToggle := rfl
@[simp] theorem State.hostRelease_dirty (a : Word) : (s.hostRelease a).dirty = s.dirty := rfl
@[simp] theorem State.hostRelease_params (a : Word) : (s.hostRelease a).params = s.params := rfl
@[simp] theorem State.hostRelease_mem (a : Word) : (s.hostRelease a).mem = s.mem.release a.toNat := rfl
@[simp] theorem State.hostRelease_inp (a : Word) : (s.hostRelease a).inp = s.inp := rfl
@[simp] theorem State.hostRelease_pending (a : Word) : (s.hostRelease a).pending = s.pending := rfl
@[simp] theorem State.hostRelease_sink (a : Word) : (s.hostRelease a).sink = s.sink := rfl
@[simp] theorem State.hostRelease_responses (a : Word) : (s.hostRelease a).responses = s.responses := rfl
@[simp] theorem State.hostRelease_accepted (a : Word) : (s.hostRelease a).accepted = s.accepted := rfl

/-! ## offer -/

@[simp] theorem State.offer_trk (c : Command) : (s.offer c).trk = s.trk := rfl
@[simp] theorem State.offer_layerInvert (c : Command) : (s.offer c).layerInvert = s.layerInvert := rfl
@[simp] theorem State.offer_canvas (c : Command) : (s.offer c).canvas = s.canvas := rfl
@[simp] theorem State.offer_rotation (c : Command) : (s.offer c).rotation = s.rotation := rfl
@[simp] theorem State.offer_canvasInvert (c : Command) : (s.offer c).canvasInvert = s.canvasInvert := rfl
@[simp] theorem State.offer_led (c : Command) : (s.offer c).led = s.led := rfl
@[simp] theorem State.offer_blinkInterval (c : Command) : (s.offer c).blinkInterval = s.blinkInterval := rfl
@[simp] theorem State.offer_lastToggle (c : Command) : (s.offer c).lastToggle = s.lastToggle := rfl
@[simp] theorem State.offer_dirty (c : Command) : (s.offer c).dirty = s.dirty := rfl
@[simp] theorem State.offer_params (c : Command) : (s.offer c).params = s.params := rfl
@[simp] theorem State.offer_mem (c : Command) : (s.offer c).mem = s.mem := rfl
@[simp] theorem State.offer_inp (c : Command) : (s.offer c).inp = s.inp := rfl
@[simp] theorem State.offer_pending (c : Command) : (s.offer c).pending = .command c s.inp :: s.pending := rfl
@[simp] theorem State.offer_sink (c : Command) : (s.offer c).sink = s.sink := rfl
@[simp] theorem State.offer_responses (c : Command) : (s.offer c).responses = s.responses := rfl
@[simp] theorem State.offer_accepted (c : Command) : (s.offer c).accepted = s.accepted := rfl

/-! ## advanceAll -/

@[simp] theorem State.advanceAll_trk : s.advanceAll.trk = s.trk.mapIdx fun L t => t.advance L s.inp.now := rfl
@[simp] theorem State.advanceAll_layerInvert : s.advanceAll.layerInvert = s.layerInvert := rfl
@[simp] theorem State.advanceAll_canvas : s.advanceAll.canvas = s.canvas := rfl
@[simp] theorem State.advanceAll_rotation : s.advanceAll.rotation = s.rotation := rfl
@[simp] theorem State.advanceAll_canvasInvert : s.advanceAll.canvasInvert = s.canvasInvert := rfl
@[simp] theorem State.advanceAll_led : s.advanceAll.led = s.led := rfl
@[simp] theorem State.advanceAll_blinkInterval : s.advanceAll.blinkInterval = s.blinkInterval := rfl
@[simp] theorem State.advanceAll_lastToggle : s.advanceAll.lastToggle = s.lastToggle := rfl
@[simp] theorem State.advanceAll_dirty : s.advanceAll.dirty = s.dirty := rfl
@[simp] theorem State.advanceAll_params : s.advanceAll.params = s.params := rfl
@[simp] theorem State.advanceAll_mem : s.advanceAll.mem = s.mem := rfl
@[simp] theorem State.advanceAll_inp : s.advanceAll.inp = s.inp := rfl
@[simp] theorem State.advanceAll_pending : s.advanceAll.pending = s.pending := rfl
@[simp] theorem State.advanceAll_sink : s.advanceAll.sink = s.sink := rfl
@[simp] theorem State.advanceAll_responses : s.advanceAll.responses = s.responses := rfl
@[simp] theorem State.advanceAll_accepted : s.advanceAll.accepted = s.accepted := rfl

/-! ## toggleDue -/

@[simp] theorem State.toggleDue_trk : s.toggleDue.trk = s.trk := rfl
@[simp] theorem State.toggleDue_layerInvert : s.toggleDue.layerInvert = s.layerInvert := rfl
@[simp] theorem State.toggleDue_canvas : s.toggleDue.canvas = s.canvas := rfl
@[simp] theorem State.toggleDue_rotation : s.toggleDue.rotation = s.rotation := rfl
@[simp] theorem State.toggleDue_canvasInvert : s.toggleDue.canvasInvert = s.canvasInvert := rfl
@[simp] theorem State.toggleDue_led : s.toggleDue.led = s.led ^^^ s.dueCells := rfl
@[simp] theorem State.toggleDue_blinkInterval : s.toggleDue.blinkInterval = s.blinkInterval := rfl
@[simp] theorem State.toggleDue_dirty : s.toggleDue.dirty = (s.dirty || decide (s.dueCells ≠ 0#96)) := rfl
@[simp] theorem State.toggleDue_params : s.toggleDue.params = s.params := rfl
@[simp] theorem State.toggleDue_mem : s.toggleDue.mem = s.mem := rfl
@[simp] theorem State.toggleDue_inp : s.toggleDue.inp = s.inp := rfl
@[simp] theorem State.toggleDue_pending : s.toggleDue.pending = s.pending := rfl
@[simp] theorem State.toggleDue_sink : s.toggleDue.sink = s.sink := rfl
@[simp] theorem State.toggleDue_responses : s.toggleDue.responses = s.responses := rfl
@[simp] theorem State.toggleDue_accepted : s.toggleDue.accepted = s.accepted := rfl

/-! ## blockReset -/

@[simp] theorem State.blockReset_params : s.blockReset.params = s.params := rfl
@[simp] theorem State.blockReset_mem : s.blockReset.mem = s.mem := rfl
@[simp] theorem State.blockReset_inp : s.blockReset.inp = s.inp := rfl
@[simp] theorem State.blockReset_pending : s.blockReset.pending = s.pending := rfl
@[simp] theorem State.blockReset_sink : s.blockReset.sink = s.sink := rfl
@[simp] theorem State.blockReset_responses : s.blockReset.responses = s.responses := rfl
@[simp] theorem State.blockReset_accepted : s.blockReset.accepted = s.accepted := rfl

/-- Reset leaves the number of layers (00_scope.md R7). -/
@[simp] theorem State.blockReset_layers : s.blockReset.layers = s.layers := by
  simp [State.layers, State.blockReset]

/-- Every layer of a reset block is at its reset value (10_state.md R51). -/
theorem State.blockReset_trk : s.blockReset.trk = List.replicate s.layers Track.reset := rfl

/-- Changing one layer leaves the number of layers. -/
@[simp] theorem State.onTrack_layers (ly : Nat) (f : Track → Track) : (s.onTrack ly f).layers = s.layers := by
  simp [State.layers]

/-- Advancing every layer leaves the number of layers. -/
@[simp] theorem State.advanceAll_layers : s.advanceAll.layers = s.layers := by
  simp [State.layers]

/-- Layer `L` after a change of layer `ly`. -/
theorem State.onTrack_getElem? (ly L : Nat) (f : Track → Track) :
    (s.onTrack ly f).trk[L]? = if L = ly then (s.trk[L]?).map f else s.trk[L]? := by
  simp only [State.onTrack_trk, List.getElem?_modify]
  by_cases h : L = ly
  · subst h; simp
  · have h' : ly ≠ L := fun e => h e.symm
    simp [h, h']

/-- Changing a layer that does not exist changes nothing (30_encoding.md R86). -/
theorem State.onTrack_absent (ly : Nat) (f : Track → Track) (h : s.layers ≤ ly) : s.onTrack ly f = s := by
  have : s.trk.modify ly f = s.trk := List.modify_eq_self (by simpa [State.layers] using h)
  simp [State.onTrack, this]

/-- Layer `L` after every layer's advance: its own advance. -/
theorem State.advanceAll_getElem? (L : Nat) :
    s.advanceAll.trk[L]? = (s.trk[L]?).map (Track.advance L s.inp.now) := by
  simp [List.getElem?_mapIdx]

end Sys2Proof.Machine
end

