-- ==== Sys2Proof/Laws/Track.lean ====
section
/-! SUPPORT. What an advance does to one layer, case by case, in index arithmetic. -/

namespace Sys2Proof.Machine

variable {t : Track}

/-- The layer is due: playing an animation, and the interval of the frame shown has passed. -/
theorem Track.due_iff (L : Nat) (now : Word) (t : Track) : t.due L now = true ↔
    t.state = .playing ∧ t.count ≠ 0#16 ∧ t.interval L ≤ elapsed now t.lastUpdate := by
  simp [Track.due, Track.valid, and_assoc]

/-- A layer that is not due does not change (40_track.md R120, R121). -/
theorem Track.advance_not_due {L : Nat} {now : Word} (h : t.due L now = false) :
    t.advance L now = t := by
  simp [Track.advance, h]

/-- An advance never changes what only START writes, nor the speed (40_track.md R120). -/
theorem Track.advance_frame (L : Nat) (now : Word) (t : Track) : t.advance L now =
    { t with
      state := (t.advance L now).state
      isRev := (t.advance L now).isRev
      cur := (t.advance L now).cur
      lastUpdate := (t.advance L now).lastUpdate } := by
  unfold Track.advance
  split
  · split <;> [split; split; skip; skip] <;>
      (simp only [Track.stepForward, Track.stepBackward, Track.stepBoomerang]
       split <;> (try split) <;> (try split) <;> rfl)
  · rfl

/-! ## Forward and backward steps -/

/-- A due layer in ONCE or LOOP mode going forward steps forward. -/
theorem Track.advance_forward {L : Nat} {now : Word} (hd : t.due L now = true)
    (hm : t.mode = .once ∨ t.mode = .loop) (hf : t.dir = .fwd) :
    t.advance L now = t.stepForward now := by
  rcases hm with h | h <;> simp [Track.advance, hd, h, hf]

/-- A due layer in ONCE or LOOP mode going backward steps backward. -/
theorem Track.advance_backward {L : Nat} {now : Word} (hd : t.due L now = true)
    (hm : t.mode = .once ∨ t.mode = .loop) (hf : t.dir = .bwd) :
    t.advance L now = t.stepBackward now := by
  rcases hm with h | h <;> simp [Track.advance, hd, h, hf]

/-- A due layer in a boomerang mode takes a boomerang step. -/
theorem Track.advance_boomerang {L : Nat} {now : Word} (hd : t.due L now = true)
    (hm : t.mode = .boomerang ∨ t.mode = .boomerangOnce) :
    t.advance L now = t.stepBoomerang now := by
  rcases hm with h | h <;> simp [Track.advance, hd, h]

/-- Index plus one, while it fits. -/
theorem half_add_one {a : Half} (h : a.toNat + 1 < 2 ^ 16) : (a + 1#16).toNat = a.toNat + 1 := by
  simp only [BitVec.toNat_add, BitVec.toNat_ofNat]
  omega

/-- Index minus one, above 0. -/
theorem half_sub_one {a : Half} (h : 0 < a.toNat) : (a - 1#16).toNat = a.toNat - 1 := by
  have := a.isLt
  simp only [BitVec.toNat_sub, BitVec.toNat_ofNat]
  omega

/-! ## Boomerang steps, on an index inside its range (40_track.md R125, R126) -/

/-- An integer below the width is stored as it is. -/
theorem ofInt_half_add (a : Half) : BitVec.ofInt 16 ((a.toNat : Int) + 1) = a + 1#16 := by
  rw [BitVec.ofInt_add, BitVec.ofInt_natCast, BitVec.ofNat_toNat, BitVec.setWidth_eq]
  rfl

/-- The same for one less. -/
theorem ofInt_half_sub (a : Half) : BitVec.ofInt 16 ((a.toNat : Int) + -1) = a - 1#16 := by
  rw [BitVec.ofInt_add, BitVec.ofInt_natCast, BitVec.ofNat_toNat, BitVec.setWidth_eq]
  have : BitVec.ofInt 16 (-1) = -1#16 := by decide
  rw [this, ← BitVec.sub_eq_add_neg]

/-- Outward phase, forward: to `e` with `isRev` set when `cur + 1` reaches it, else `cur + 1`. -/
theorem Track.stepBoomerang_out_fwd {now : Word} (hr : t.isRev = false) (hd : t.dir = .fwd) :
    t.stepBoomerang now =
      if t.cur.toNat + 1 ≥ t.e.toNat then { t.moveTo now t.e with isRev := true }
      else t.moveTo now (t.cur + 1#16) := by
  have e : ((t.cur.toNat : Int) + 1 ≥ (t.e.toNat : Int)) ↔ t.cur.toNat + 1 ≥ t.e.toNat := by omega
  simp only [Track.stepBoomerang, hr, Track.outward, Track.reachesFar, Track.far, hd, decide_eq_true_eq, e,
    ofInt_half_add, Bool.false_eq_true, if_false]

/-- Outward phase, backward: to `s` with `isRev` set when `cur - 1` reaches it, else `cur - 1`. -/
theorem Track.stepBoomerang_out_bwd {now : Word} (hr : t.isRev = false) (hd : t.dir = .bwd) :
    t.stepBoomerang now =
      if t.cur.toNat ≤ t.s.toNat + 1 then { t.moveTo now t.s with isRev := true }
      else t.moveTo now (t.cur - 1#16) := by
  have e : ((t.cur.toNat : Int) + -1 ≤ (t.s.toNat : Int)) ↔ t.cur.toNat ≤ t.s.toNat + 1 := by omega
  simp only [Track.stepBoomerang, hr, Track.outward, Track.reachesFar, Track.far, hd, decide_eq_true_eq, e,
    ofInt_half_sub, Bool.false_eq_true, if_false]

/-- Return phase, forward: at `s` again completes or restarts, else `cur - 1`. -/
theorem Track.stepBoomerang_back_fwd {now : Word} (hr : t.isRev = true) (hd : t.dir = .fwd) :
    t.stepBoomerang now =
      if t.cur.toNat ≤ t.s.toNat + 1 then
        (if t.mode = .boomerangOnce then t.complete else { t.moveTo now t.s with isRev := false })
      else t.moveTo now (t.cur - 1#16) := by
  have e : ((t.cur.toNat : Int) - 1 ≤ (t.s.toNat : Int)) ↔ t.cur.toNat ≤ t.s.toNat + 1 := by omega
  have e' : (t.cur.toNat : Int) - 1 = t.cur.toNat + -1 := rfl
  simp only [Track.stepBoomerang, hr, Track.outward, Track.reachesInit, Track.init, hd, decide_eq_true_eq, e,
    if_true]
  rw [e', ofInt_half_sub]

/-- Return phase, backward: at `e` again completes or restarts, else `cur + 1`. -/
theorem Track.stepBoomerang_back_bwd {now : Word} (hr : t.isRev = true) (hd : t.dir = .bwd) :
    t.stepBoomerang now =
      if t.cur.toNat + 1 ≥ t.e.toNat then
        (if t.mode = .boomerangOnce then t.complete else { t.moveTo now t.e with isRev := false })
      else t.moveTo now (t.cur + 1#16) := by
  have e : ((t.cur.toNat : Int) - -1 ≥ (t.e.toNat : Int)) ↔ t.cur.toNat + 1 ≥ t.e.toNat := by omega
  have e' : (t.cur.toNat : Int) - -1 = t.cur.toNat + 1 := by omega
  simp only [Track.stepBoomerang, hr, Track.outward, Track.reachesInit, Track.init, hd, decide_eq_true_eq, e,
    if_true]
  rw [e', ofInt_half_add]

end Sys2Proof.Machine
end

