-- ==== Sys2Proof/Laws/Invariant.lean ====
section
/-! SUPPORT. What each change of a layer does to the relations of 10_state.md R33, and what each
shared operation does to the invariant of the machine. -/

namespace Sys2Proof.Machine

/-! ## One layer -/

/-- A layer at its reset value (10_state.md R51) is in order. -/
theorem Track.Ok.reset (n : Nat) : Track.reset.Ok n := by
  constructor <;> simp [Track.reset]

/-- Release keeps the relations (40_track.md R111, R116). -/
theorem Track.Ok.release {n} {t : Track} (h : t.Ok n) : t.release.Ok n := by
  constructor <;> simp [Track.release]
  exact h.custom_iff
  exact h.ram

/-- PAUSE keeps the relations (40_track.md R142). -/
theorem Track.Ok.pause {n} {t : Track} (h : t.Ok n) : t.pause.Ok n := by
  unfold Track.pause
  split
  · next hp =>
    obtain ⟨h1,h2,h3,h4,h5,h6,h7⟩ := h
    rw [hp] at h1
    constructor <;> simp_all
  · exact h

/-- RESUME keeps the relations (40_track.md R143). -/
theorem Track.Ok.resume {n now} {t : Track} (h : t.Ok n) : (t.resume now).Ok n := by
  unfold Track.resume
  split
  · next hp =>
    obtain ⟨h1,h2,h3,h4,h5,h6,h7⟩ := h
    rw [hp] at h1
    constructor <;> simp_all
  · exact h

/-- RESTORE_SPEED keeps the relations (40_track.md R144). -/
theorem Track.Ok.restoreSpeed {n now} {t : Track} (h : t.Ok n) : (t.restoreSpeed now).Ok n := by
  apply Track.Ok.resume
  obtain ⟨h1,h2,h3,h4,h5,h6,h7⟩ := h
  constructor <;> simp_all

/-- SET_SPEED keeps the relations (40_track.md R140). -/
theorem Track.Ok.setSpeed {n now ms} {t : Track} (h : t.Ok n) : (t.setSpeed now ms).Ok n := by
  unfold Track.setSpeed
  split
  · split
    · exact Track.Ok.pause h
    · apply Track.Ok.resume
      obtain ⟨h1,h2,h3,h4,h5,h6,h7⟩ := h
      constructor <;> simp_all
  · exact h

/-- Completion keeps the relations (40_track.md R127). -/
theorem Track.Ok.complete {n} {t : Track} (h : t.Ok n) (hp : t.state = .playing)
    (hm : t.mode = .once ∨ t.mode = .boomerangOnce) : t.complete.Ok n := by
    obtain ⟨h1,h2,h3,h4,h5,h6,h7⟩ := h
    rw [hp] at h1
    constructor <;> simp_all [Track.complete]

/-- A move inside the sub-range keeps the relations, whatever it makes of `isRev`. -/
theorem Track.Ok.moveTo_isRev {n now} {t : Track} (h : t.Ok n) (hp : t.state = .playing)
    (k : Half) (b : Bool) (hk : t.s ≤ k ∧ k ≤ t.e) : ({ t.moveTo now k with isRev := b}).Ok n := by
    obtain ⟨h1,h2,h3,h4,h5,h6,h7⟩ := h
    rw [hp] at h1
    constructor <;> simp_all [Track.moveTo]

/-- A move inside the sub-range keeps the relations. -/
theorem Track.Ok.moveTo {n now} {t : Track} (h : t.Ok n) (hp : t.state = .playing)
    (k : Half) (hk : t.s ≤ k ∧ k ≤ t.e) : (t.moveTo now k).Ok n :=
  Track.Ok.moveTo_isRev h hp k t.isRev hk

/-- A tick keeps the relations (40_track.md R120 to R128). -/
theorem Track.Ok.advance {n now L} {t : Track} (h : t.Ok n) : (t.advance L now).Ok n := by
  by_cases hd : t.due L now = true
  · have hd' := (Track.due_iff L now t).mp hd
    obtain ⟨hp, hc, hi⟩ := hd'
    obtain ⟨hs, he, hl⟩ := h.range hc
    have hse : t.s ≤ t.e := BitVec.le_trans hs he
    have hs' := BitVec.le_def.mp hs
    have he' := BitVec.le_def.mp he
    have hse' := BitVec.le_def.mp hse
    have hcl := t.e.isLt
    have hcu := t.cur.isLt
    have up : ¬ t.e ≤ t.cur → t.s ≤ t.cur + 1#16 ∧ t.cur + 1#16 ≤ t.e := by
      intro hx
      rw [BitVec.le_def] at hx
      rw [BitVec.le_def, BitVec.le_def, half_add_one (by omega)]; omega
    have down : ¬ t.cur ≤ t.s → t.s ≤ t.cur - 1#16 ∧ t.cur - 1#16 ≤ t.e := by
      intro hx
      rw [BitVec.le_def] at hx
      rw [BitVec.le_def, BitVec.le_def, half_sub_one (by omega)]; omega
    have all : ∀ m : Mode, m = .once ∨ m = .loop ∨ m = .boomerang ∨ m = .boomerangOnce := by intro m; cases m <;> simp
    rcases (show (t.mode = .once ∨ t.mode = .loop) ∨ (t.mode = .boomerang ∨ t.mode = .boomerangOnce) by
      have := all t.mode
      tauto) with hm | hm
    · cases hdr : t.dir
      · rw [Track.advance_forward hd hm hdr]
        unfold Track.stepForward
        split
        · split
          · next ho => exact Track.Ok.complete h hp (.inl ho)
          · exact Track.Ok.moveTo h hp _ ⟨BitVec.le_refl _, hse⟩
        · next hx => exact Track.Ok.moveTo h hp _ (up hx)
      · rw [Track.advance_backward hd hm hdr]
        unfold Track.stepBackward
        split
        · split
          · next ho => exact Track.Ok.complete h hp (.inl ho)
          · exact Track.Ok.moveTo h hp _ ⟨hse, BitVec.le_refl _⟩
        · next hx => exact Track.Ok.moveTo h hp _ (down hx)
    · rw [Track.advance_boomerang hd hm]
      cases hr : t.isRev <;> cases hdr : t.dir
      · rw [Track.stepBoomerang_out_fwd hr hdr]
        split
        · exact Track.Ok.moveTo_isRev h hp _ _ ⟨hse, BitVec.le_refl _⟩
        · exact Track.Ok.moveTo h hp _ (up (by rw [BitVec.le_def]; omega))
      · rw [Track.stepBoomerang_out_bwd hr hdr]
        split
        · exact Track.Ok.moveTo_isRev h hp _ _ ⟨BitVec.le_refl _, hse⟩
        · exact Track.Ok.moveTo h hp _ (down (by rw [BitVec.le_def]; omega))
      · rw [Track.stepBoomerang_back_fwd hr hdr]
        split
        · split
          · next ho => exact Track.Ok.complete h hp (.inr ho)
          · exact Track.Ok.moveTo_isRev h hp _ _ ⟨BitVec.le_refl _, hse⟩
        · exact Track.Ok.moveTo h hp _ (down (by rw [BitVec.le_def]; omega))
      · rw [Track.stepBoomerang_back_bwd hr hdr]
        split
        · split
          · next ho => exact Track.Ok.complete h hp (.inr ho)
          · exact Track.Ok.moveTo_isRev h hp _ _ ⟨hse, BitVec.le_refl _⟩
        · exact Track.Ok.moveTo h hp _ (up (by rw [BitVec.le_def]; omega))
  · rw [Track.advance_not_due (by simpa using hd)]; exact h

/-- A START that passes sets the relations up (40_track.md R110 to R115). -/
theorem Track.Ok.started {n now md base count r ds} {t : Track} (h : t.Ok n) (hc : count ≠ 0#16)
    (hn : count.toNat ≤ n) (hd : ds.length = count.toNat)
   (hr : r.s ≤ r.e ∧ r.e.toNat ≤ count.toNat - 1) : (t.started now md base count r ds).Ok n := by
  constructor
  · simp [Track.started, hc]
  · intro _; simp only [Track.started]; split
    · exact ⟨hr.1, BitVec.le_refl _, hr.2⟩
    · exact ⟨BitVec.le_refl _, hr.1, hr.2⟩
  · exact h.custom_iff
  · simp [Track.started]
  · exact hn
  · simp [Track.started]; omega
  · have := h.ram; simp [Track.started]; omega

/-! ## The machine -/

/-- A change of one layer that keeps its relations keeps the invariant. -/
theorem State.Inv.onTrack {s : State} {ly f} (h : s.Inv)
    (hf : ∀ t ∈ s.trk, t.Ok s.params.maxFrames → (f t).Ok s.params.maxFrames) : (s.onTrack ly f).Inv := by
  refine ⟨?_, h.clean, h.memory, by rw [State.onTrack_layers]; exact h.layersRange, h.paramsRange⟩
  intro t ht
  rw [List.mem_iff_getElem?] at ht
  obtain ⟨L, hL⟩ := ht
  rw [State.onTrack_getElem?] at hL
  simp only [State.onTrack_params]
  split at hL
  · cases hx : s.trk[L]? with
    | none => rw [hx] at hL; cases hL
    | some u => rw [hx] at hL; cases hL; exact hf u (List.mem_of_getElem? hx) (h.tracks u (List.mem_of_getElem? hx))
  · exact h.tracks t (List.mem_of_getElem? hL)

/-- What leaves layers, parameters and memory, and `dirty` clear, keeps the invariant. -/
theorem State.Inv.congr {s t : State} (h : s.Inv) (h1 : t.trk = s.trk) (h2 : t.params = s.params)
    (h3 : t.mem = s.mem) (h4 : t.dirty = false) : t.Inv :=
  ⟨by rw [h1, h2]; exact h.tracks, h4, by rw [h3]; exact h.memory,
    by rw [State.layers, h1]; exact h.layersRange, by rw [h2]; exact h.paramsRange⟩

/-- Every layer's tick keeps the invariant (41_layerset.md R166). -/
theorem State.Inv.advanceAll {s : State} (h : s.Inv) : s.advanceAll.Inv := by
  refine ⟨?_, h.clean, h.memory, by rw [State.advanceAll_layers]; exact h.layersRange, h.paramsRange⟩
  intro t ht
  rw [List.mem_iff_getElem?] at ht
  obtain ⟨L, hL⟩ := ht
  rw [State.advanceAll_getElem?] at hL
  cases hx : s.trk[L]? with
    | none => rw [hx] at hL; cases hL
    | some u => rw [hx] at hL; cases hL; exact Track.Ok.advance (h.tracks u (List.mem_of_getElem? hx))

end Sys2Proof.Machine
end

