-- ==== Sys2Proof/Laws/LedGrid.lean ====
section
/-! SUPPORT. The write step, the show step and the per-cell arrays of the LED grid. -/

namespace Sys2Proof.Machine

variable (s : State)

/-! ## The write step (43_ledgrid.md R201) -/

/-- It writes `led` and `dirty` only. -/
theorem State.ledWrite_eq (i : Cell) (v : Bool) :
    s.ledWrite i v = { s with led := (s.ledWrite i v).led, dirty := (s.ledWrite i v).dirty } := by
  unfold State.ledWrite
  split <;> rfl

/-- Cell `j` after it. -/
theorem State.ledWrite_led (i : Cell) (v : Bool) (j : Nat) :
    (s.ledWrite i v).led.getLsbD j = if j = i.val then v else s.led.getLsbD j := by
  unfold State.ledWrite
  split
  · next h =>
    by_cases hj : j = i.val
    · subst hj
      rw [if_pos rfl, h]
    · rw [if_neg hj]
  · exact getLsbD_setCell ..

/-- `dirty` after it: set when the bit changed. -/
theorem State.ledWrite_dirty (i : Cell) (v : Bool) :
    (s.ledWrite i v).dirty = (s.dirty || decide (s.led.getLsbD i.val ≠ v)) := by
  unfold State.ledWrite
  by_cases h : s.led.getLsbD i.val = v
  · rw [if_pos h, decide_eq_false (not_not_intro h), Bool.or_false]
  · rw [if_neg h, decide_eq_true h, Bool.or_true]

/-! ## The show step (43_ledgrid.md R202) -/

/-- It writes `sink` and `dirty` only, and leaves `dirty` clear. -/
theorem State.show_eq : s.show = { s with sink := s.show.sink, dirty := false } := by
  unfold State.show
  split
  · rfl
  · next h =>
    have : s.dirty = false := by simpa using h
    rw [← this]

/-- The sink after it: the whole buffer once when dirty, nothing otherwise. -/
theorem State.show_sink : s.show.sink = if s.dirty then s.sink ++ [pack s.led] else s.sink := by
  unfold State.show
  split <;> rfl

/-! ## What the write step and the show step leave -/

@[simp] theorem State.ledWrite_trk (i : Cell) (v : Bool) : (s.ledWrite i v).trk = s.trk := by
  rw [State.ledWrite_eq]
@[simp] theorem State.ledWrite_layerInvert (i : Cell) (v : Bool) : (s.ledWrite i v).layerInvert = s.layerInvert := by
  rw [State.ledWrite_eq]
@[simp] theorem State.ledWrite_canvas (i : Cell) (v : Bool) : (s.ledWrite i v).canvas = s.canvas := by
  rw [State.ledWrite_eq]
@[simp] theorem State.ledWrite_rotation (i : Cell) (v : Bool) : (s.ledWrite i v).rotation = s.rotation := by
  rw [State.ledWrite_eq]
@[simp] theorem State.ledWrite_canvasInvert (i : Cell) (v : Bool) : (s.ledWrite i v).canvasInvert = s.canvasInvert := by
  rw [State.ledWrite_eq]
@[simp] theorem State.ledWrite_blinkInterval (i : Cell) (v : Bool) : (s.ledWrite i v).blinkInterval = s.blinkInterval := by
  rw [State.ledWrite_eq]
@[simp] theorem State.ledWrite_lastToggle (i : Cell) (v : Bool) : (s.ledWrite i v).lastToggle = s.lastToggle := by
  rw [State.ledWrite_eq]
@[simp] theorem State.ledWrite_params (i : Cell) (v : Bool) : (s.ledWrite i v).params = s.params := by
  rw [State.ledWrite_eq]
@[simp] theorem State.ledWrite_mem (i : Cell) (v : Bool) : (s.ledWrite i v).mem = s.mem := by
  rw [State.ledWrite_eq]
@[simp] theorem State.ledWrite_inp (i : Cell) (v : Bool) : (s.ledWrite i v).inp = s.inp := by
  rw [State.ledWrite_eq]
@[simp] theorem State.ledWrite_pending (i : Cell) (v : Bool) : (s.ledWrite i v).pending = s.pending := by
  rw [State.ledWrite_eq]
@[simp] theorem State.ledWrite_responses (i : Cell) (v : Bool) : (s.ledWrite i v).responses = s.responses := by
  rw [State.ledWrite_eq]
@[simp] theorem State.ledWrite_accepted (i : Cell) (v : Bool) : (s.ledWrite i v).accepted = s.accepted := by
  rw [State.ledWrite_eq]
@[simp] theorem State.ledWrite_sink (i : Cell) (v : Bool) : (s.ledWrite i v).sink = s.sink := by
  rw [State.ledWrite_eq]
@[simp] theorem State.show_trk : s.show.trk = s.trk := by rw [State.show_eq]
@[simp] theorem State.show_layerInvert : s.show.layerInvert = s.layerInvert := by rw [State.show_eq]
@[simp] theorem State.show_canvas : s.show.canvas = s.canvas := by rw [State.show_eq]
@[simp] theorem State.show_rotation : s.show.rotation = s.rotation := by rw [State.show_eq]
@[simp] theorem State.show_canvasInvert : s.show.canvasInvert = s.canvasInvert := by rw [State.show_eq]
@[simp] theorem State.show_blinkInterval : s.show.blinkInterval = s.blinkInterval := by rw [State.show_eq]
@[simp] theorem State.show_lastToggle : s.show.lastToggle = s.lastToggle := by rw [State.show_eq]
@[simp] theorem State.show_params : s.show.params = s.params := by rw [State.show_eq]
@[simp] theorem State.show_mem : s.show.mem = s.mem := by rw [State.show_eq]
@[simp] theorem State.show_inp : s.show.inp = s.inp := by rw [State.show_eq]
@[simp] theorem State.show_pending : s.show.pending = s.pending := by rw [State.show_eq]
@[simp] theorem State.show_responses : s.show.responses = s.responses := by rw [State.show_eq]
@[simp] theorem State.show_accepted : s.show.accepted = s.accepted := by rw [State.show_eq]
@[simp] theorem State.show_led : s.show.led = s.led := by rw [State.show_eq]
@[simp] theorem State.show_dirty : s.show.dirty = false := by rw [State.show_eq]

/-! ## The per-cell arrays -/

/-- An interval after a write of cell `i`'s. -/
theorem State.setInterval_get (i j : Cell) (r : Word) :
    (s.setInterval i r).blinkInterval[j.val] = if j = i then r else s.blinkInterval[j.val] := by
  simp only [State.setInterval_blinkInterval, Vector.getElem_set]
  by_cases h : j = i
  · subst h; simp
  · have : ¬ i.val = j.val := fun e => h (Fin.ext e.symm)
    simp [h, this]

/-- A timestamp after a write of cell `i`'s. -/
theorem State.setLastToggle_get (i j : Cell) (w : Word) :
    (s.setLastToggle i w).lastToggle[j.val] = if j = i then w else s.lastToggle[j.val] := by
  simp only [State.setLastToggle_lastToggle, Vector.getElem_set]
  by_cases h : j = i
  · subst h; simp
  · have : ¬ i.val = j.val := fun e => h (Fin.ext e.symm)
    simp [h, this]

/-- Two arrays with the same entries are equal. -/
theorem cells_ext (v w : Vector Word 96) (h : ∀ i : Cell, v[i.val] = w[i.val]) : v = w :=
  Vector.ext fun i hi => h ⟨i, hi⟩

/-- A cell's toggle is due when it blinks and its interval has passed (43_ledgrid.md R207). -/
theorem State.blinkDue_cell (i : Cell) :
    s.blinkDue i.val = true ↔ s.blinkInterval[i.val] ≠ 0#32 ∧
      s.blinkInterval[i.val] ≤ elapsed s.inp.now s.lastToggle[i.val] := by
  simp [State.blinkDue, i.isLt]

/-- Cell `i` after all due cells toggled. -/
theorem State.toggleDue_led_cell (i : Cell) :
    s.toggleDue.led.getLsbD i.val = (s.led.getLsbD i.val ^^ s.blinkDue i.val) := by
  rw [State.toggleDue_led, BitVec.getLsbD_xor, State.dueCells, getLsbD_bitsOf]
  simp only [i.isLt, decide_true, Bool.true_and]

/-- The timestamp of cell `i` after all due cells toggled. -/
theorem State.toggleDue_lastToggle_cell (i : Cell) :
    s.toggleDue.lastToggle[i.val] = if s.blinkDue i.val then s.inp.now else s.lastToggle[i.val] := by
  simp [State.toggleDue]

/-- Some cell's toggle is due exactly when the due cells are not none. -/
theorem State.dueCells_ne_zero : s.dueCells ≠ 0#96 ↔ ∃ i : Cell, s.blinkDue i.val = true := by
  constructor
  · intro h
    by_contra hn
    refine h (frame_ext _ _ fun i => ?_)
    have : s.blinkDue i.val = false := by
      by_contra hb
      exact hn ⟨i, by simpa using hb⟩
    rw [State.dueCells, getLsbD_bitsOf, this]
    simp
  · rintro ⟨i, hi⟩ h
    have := congrArg (fun F => F.getLsbD i.val) h
    simp only [State.dueCells, getLsbD_bitsOf, hi, i.isLt] at this
    simp at this

end Sys2Proof.Machine
end

