-- ==== Sys2Proof/Laws/Reads.lean ====
section
/-! SUPPORT. What the reads of animation memory give: one word, the timing copy, one frame, the
composite; and when each of them faults. -/

namespace Sys2Proof.Machine

variable {s : State}

/-! ## One word -/

/-- A readable word is read. -/
theorem State.memRead_of_readable {n : Nat} {a : Word} (h : s.readable a = true) :
    ∃ w, s.memRead n a = .ok w := by
  unfold State.readable at h
  unfold State.memRead
  cases hr : s.mem.read a.toNat with
  | none => rw [hr] at h; simp at h
  | some w => exact ⟨_, rfl⟩

/-- A word outside ANIM_READABLE faults, and the fault names its address (60_exceptions.md R252). -/
theorem State.memRead_unreadable {n : Nat} {a : Word} (h : s.readable a = false) :
    s.memRead n a = .error (.animReadOutsideWindow a) := by
  unfold State.readable at h
  unfold State.memRead
  cases hr : s.mem.read a.toNat with
  | none => rfl
  | some w => rw [hr] at h; simp at h

/-- A read that gives a word was readable. -/
theorem State.readable_of_memRead {n : Nat} {a w : Word} (h : s.memRead n a = .ok w) :
    s.readable a = true := by
  by_contra hr
  rw [State.memRead_unreadable (by simpa using hr)] at h
  cases h

/-- Reads depend on memory, the racing set and the command number only. -/
theorem State.memRead_congr {t : State} (hm : t.mem = s.mem) (hi : t.inp.racing = s.inp.racing)
    (ha : t.accepted = s.accepted) (n : Nat) (a : Word) : t.memRead n a = s.memRead n a := by
  simp [State.memRead, hm, hi, ha]

/-- Readability depends on memory only. -/
theorem State.readable_congr {t : State} (hm : t.mem = s.mem) (a : Word) :
    t.readable a = s.readable a := by
  simp [State.readable, hm]

/-! ## The timing copy -/

/-- A copy that succeeds holds, in order, the words read. -/
theorem State.copyTimings_ok {base : Word} {n : Nat} : ∀ {k : Nat} {ws : List Word},
    s.copyTimings base k n = .ok ws →
      ws.length = n ∧ ∀ j, (hj : j < ws.length) →
        s.memRead (k + j) (rowWord base (k + j) 3) = .ok ws[j] := by
  induction n with
  | zero =>
    intro k ws h
    simp only [State.copyTimings, Except.ok.injEq] at h
    subst h
    exact ⟨rfl, fun j hj => absurd hj (Nat.not_lt_zero _)⟩
  | succ n ih =>
    intro k ws h
    simp only [State.copyTimings] at h
    split at h
    · cases h
    · next w hw =>
      split at h
      · cases h
      · next ws' hws =>
        cases h
        obtain ⟨hl, hr⟩ := ih hws
        refine ⟨by simp [hl], fun j hj => ?_⟩
        cases j with
        | zero => simpa using hw
        | succ j =>
          have := hr j (by simpa using hj)
          simpa [Nat.add_comm, Nat.add_left_comm, Nat.add_assoc] using this

/-- When every duration word is readable the copy succeeds. -/
theorem State.copyTimings_of_readable {base : Word} {n : Nat} : ∀ {k : Nat},
    (∀ j, j < n → s.readable (rowWord base (k + j) 3) = true) →
      ∃ ws, s.copyTimings base k n = .ok ws := by
  induction n with
  | zero => exact fun _ => ⟨[], rfl⟩
  | succ n ih =>
    intro k h
    obtain ⟨w, hw⟩ := State.memRead_of_readable (n := k) (h 0 (Nat.succ_pos _))
    obtain ⟨ws, hws⟩ := ih (k := k + 1) fun j hj => by
      have := h (j + 1) (Nat.succ_lt_succ hj)
      rwa [Nat.add_assoc, Nat.add_comm 1 j]
    simp only [Nat.add_zero] at hw
    exact ⟨w :: ws, by simp [State.copyTimings, hw, hws]⟩

/-- The first duration word that is not readable is the one the copy reports. -/
theorem State.copyTimings_fault {base : Word} {n : Nat} : ∀ {k j : Nat}, j < n →
    (∀ i, i < j → s.readable (rowWord base (k + i) 3) = true) →
    s.readable (rowWord base (k + j) 3) = false →
      s.copyTimings base k n = .error (.animReadOutsideWindow (rowWord base (k + j) 3)) := by
  induction n with
  | zero => exact fun h => absurd h (Nat.not_lt_zero _)
  | succ n ih =>
    intro k j hj hi hr
    cases j with
    | zero =>
      have := State.memRead_unreadable (n := k) hr
      simp only [Nat.add_zero] at this
      simp [State.copyTimings, this]
    | succ j =>
      obtain ⟨w, hw⟩ := State.memRead_of_readable (n := k) (hi 0 (Nat.succ_pos _))
      simp only [Nat.add_zero] at hw
      have e : ∀ i, k + (i + 1) = k + 1 + i := fun i => by omega
      have later := ih (k := k + 1) (Nat.lt_of_succ_lt_succ hj)
        (fun i h => by have := hi (i + 1) (Nat.succ_lt_succ h); rwa [e] at this)
        (by rwa [e] at hr)
      rw [e j]
      simp only [State.copyTimings, hw, later]

/-! ## One frame -/

/-- A frame fetched is the three words read, in order. -/
theorem State.fetchFrame_ok {n : Nat} {t : Track} {p : Packed} (h : s.fetchFrame n t = .ok p) :
    ∀ j, j < 3 → s.memRead (n + j) (rowWord t.base t.cur.toNat j) = .ok (p.word j) := by
  unfold State.fetchFrame at h
  split at h
  · cases h
  · next w0 h0 =>
    split at h
    · cases h
    · next w1 h1 =>
      split at h
      · cases h
      · next w2 h2 =>
        cases h
        intro j hj
        match j, hj with
        | 0, _ => exact h0
        | 1, _ => exact h1
        | 2, _ => exact h2

/-- When the three words are readable the frame is fetched. -/
theorem State.fetchFrame_of_readable {n : Nat} {t : Track}
    (h : ∀ j, j < 3 → s.readable (rowWord t.base t.cur.toNat j) = true) :
    ∃ p, s.fetchFrame n t = .ok p := by
  obtain ⟨w0, h0⟩ := State.memRead_of_readable (n := n) (h 0 (by decide))
  obtain ⟨w1, h1⟩ := State.memRead_of_readable (n := n + 1) (h 1 (by decide))
  obtain ⟨w2, h2⟩ := State.memRead_of_readable (n := n + 2) (h 2 (by decide))
  exact ⟨⟨w0, w1, w2⟩, by simp [State.fetchFrame, h0, h1, h2]⟩

/-- A frame fetch depends on memory, the racing set and the command number only. -/
theorem State.fetchFrame_congr {t : State} (hm : t.mem = s.mem)
    (hi : t.inp.racing = s.inp.racing) (ha : t.accepted = s.accepted) (n : Nat) (tr : Track) :
    t.fetchFrame n tr = s.fetchFrame n tr := by
  simp only [State.fetchFrame, State.memRead_congr hm hi ha]

/-! ## The composite -/

/-- A composite depends on memory, the racing set and the command number only. -/
theorem State.compositeFrom_congr {t : State} (hm : t.mem = s.mem)
    (hi : t.inp.racing = s.inp.racing) (ha : t.accepted = s.accepted) :
    ∀ (ts : List Track) (L : Nat), t.compositeFrom L ts = s.compositeFrom L ts
  | [], _ => rfl
  | tr :: ts, L => by
    simp only [State.compositeFrom, State.fetchFrame_congr hm hi ha,
      State.compositeFrom_congr hm hi ha ts]

/-- A cell of the composite is lit exactly when some valid layer's frame lights it
(41_layerset.md R165). -/
theorem State.compositeFrom_ok : ∀ {ts : List Track} {L : Nat} {C : FrameVec},
    s.compositeFrom L ts = .ok C → ∀ d, C.getLsbD d = true ↔
      ∃ j t p, ts[j]? = some t ∧ t.valid = true ∧ s.fetchFrame (3 * (L + j)) t = .ok p ∧
        (unpack p).getLsbD d = true := by
  intro ts
  induction ts with
  | nil =>
    intro L C h d
    simp only [State.compositeFrom, Except.ok.injEq] at h
    subst h
    simp
  | cons t ts ih =>
    intro L C h d
    have later : ∀ {C' : FrameVec}, s.compositeFrom (L + 1) ts = .ok C' → (C'.getLsbD d = true ↔
        ∃ j u p, (t :: ts)[j + 1]? = some u ∧ u.valid = true ∧
          s.fetchFrame (3 * (L + (j + 1))) u = .ok p ∧ (unpack p).getLsbD d = true) := by
      intro C' h'
      rw [ih h' d]
      have e : ∀ j, L + 1 + j = L + (j + 1) := fun j => by omega
      simp only [List.getElem?_cons_succ, e]
    simp only [State.compositeFrom] at h
    split at h
    · next hv =>
      split at h
      · cases h
      · next p hp =>
        split at h
        · cases h
        · next C' hC =>
          cases h
          rw [BitVec.getLsbD_or, Bool.or_eq_true, later hC]
          constructor
          · rintro (hb | ⟨j, u, q, hu⟩)
            · exact ⟨0, t, p, rfl, hv, hp, hb⟩
            · exact ⟨j + 1, u, q, hu⟩
          · rintro ⟨j, u, q, hu, huv, hq, hb⟩
            cases j with
            | zero =>
              cases hu
              rw [Nat.add_zero] at hq
              rw [hp] at hq
              cases hq
              exact .inl hb
            | succ j => exact .inr ⟨j, u, q, hu, huv, hq, hb⟩
    · next hv =>
      rw [later h]
      constructor
      · rintro ⟨j, u, q, hu⟩
        exact ⟨j + 1, u, q, hu⟩
      · rintro ⟨j, u, q, hu, huv, hq, hb⟩
        cases j with
        | zero =>
          cases hu
          exact absurd huv hv
        | succ j => exact ⟨j, u, q, hu, huv, hq, hb⟩

/-- When the frames of all valid layers are readable there is a composite. -/
theorem State.compositeFrom_of_readable : ∀ {ts : List Track} {L : Nat},
    (∀ t ∈ ts, t.valid = true → ∀ j, j < 3 → s.readable (rowWord t.base t.cur.toNat j) = true) →
      ∃ C, s.compositeFrom L ts = .ok C := by
  intro ts
  induction ts with
  | nil => exact fun _ => ⟨_, rfl⟩
  | cons t ts ih =>
    intro L h
    obtain ⟨C, hC⟩ := ih (L := L + 1) fun u hu => h u (List.mem_cons_of_mem _ hu)
    by_cases hv : t.valid = true
    · obtain ⟨p, hp⟩ := State.fetchFrame_of_readable (n := 3 * L) (h t List.mem_cons_self hv)
      exact ⟨unpack p ||| C, by simp only [State.compositeFrom, hv, if_true, hp, hC]⟩
    · exact ⟨C, by simp only [State.compositeFrom, hv]; exact hC⟩

end Sys2Proof.Machine
end

