-- ==== Sys2Proof/Laws/Layers.lean ====
section
/-! SUPPORT. What a command makes of one layer, of the rows the layers borrow, and of the loops the
spec writes. -/

namespace Sys2Proof.Machine

/-! ## One layer under one command -/

/-- The layer a command names, after the command. -/
theorem State.onTrack_get (s : State) (ly : Nat) (f) : (s.onTrack ly f).trk[ly]? = (s.trk[ly]?).map f := by
  rw [State.onTrack_getElem?, if_pos rfl]

/-- A layer that holds something exists. -/
theorem State.not_layers_le {s : State} {ly tr} (h : s.trk[ly]? = some tr) : ¬ s.layers ≤ ly := by
  have := List.getElem?_eq_some_iff.mp h
  obtain ⟨h, _⟩ := this
  unfold State.layers; omega

/-- A change that leaves the layer as it is leaves the state. -/
theorem State.onTrack_self {s : State} {ly f tr} (h : s.trk[ly]? = some tr) (hf : f tr = tr) : s.onTrack ly f = s := by
  have : s.trk.modify ly f = s.trk := by
    apply List.ext_getElem?; intro L
    have := State.onTrack_getElem? s ly L f
    simp only [State.onTrack_trk] at this
    rw [this]; split
    · next e => subst e; rw [h]; simp [hf]
    · rfl
  simp [State.onTrack, this]

/-- What a tick makes of the state: nothing, or COMPLETED from PLAYING in a mode that completes
(40_track.md R127). -/
theorem Track.advance_state {L now} (tr : Track) : (tr.advance L now).state = tr.state ∨
    (tr.state = .playing ∧ tr.due L now = true ∧ (tr.advance L now).state = .completed ∧
      (tr.mode = .once ∨ tr.mode = .boomerangOnce)) := by
  by_cases hd : tr.due L now = true
  · have hp := ((Track.due_iff ..).mp hd).1
    cases hm : tr.mode <;> simp only [Track.advance, hd, if_true, hm]
    · cases hdr : tr.dir
      · simp only [Track.stepForward, hm, if_true]; split
        · simp [hp, Track.complete]
        · exact .inl rfl
      · simp only [Track.stepBackward, hm, if_true]; split
        · simp [hp, Track.complete]
        · exact .inl rfl
    · left; cases hdr : tr.dir
      · simp only [Track.stepForward, hm, reduceCtorEq, if_false]; split <;> rfl
      · simp only [Track.stepBackward, hm, reduceCtorEq, if_false]; split <;> rfl
    · left; simp only [Track.stepBoomerang, hm, reduceCtorEq, if_false]; split <;> split <;> rfl
    · simp only [Track.stepBoomerang, hm, if_true]; split <;> split
      · simp [hp, Track.complete]
      all_goals exact .inl rfl
  · left; rw [Track.advance_not_due (by simpa using hd)]

/-- Layer `L` after a command that completes, from the layer before it (40_track.md; 41_layerset.md R160). -/
def State.layerAfter (s : State) (i : Instr) (L : Nat) (tr : Track) : Track :=
   match i with
   | .start ly md pr base count sf ef =>
     if L = ly then
       if startFails s.params.maxFrames pr count = true then tr.release
       else tr.started s.inp.now md base count (startRange count sf ef)
         (match s.copyTimings base 0 count.toNat with
          | .ok d => d
          | .error _ => [])
     else tr
   | .stop ly => if L = ly then tr.release else tr
   | .trackTick ly => if L = ly then tr.advance L s.inp.now else tr
   | .setSpeed ly ms => if L = ly then tr.setSpeed s.inp.now ms else tr
   | .pause ly => if L = ly then tr.pause else tr
   | .resume ly => if L = ly then tr.resume s.inp.now else tr
   | .restoreSpeed ly => if L = ly then tr.restoreSpeed s.inp.now else tr
   | .layersUpdate => tr.advance L s.inp.now
   | _ => tr

/-- A command that completes makes of each layer what `layerAfter` says. -/
theorem exec_layerAfter {i : Instr} {s t : State} {L : Nat} (he : exec i s = .next t) :
    t.trk[L]? = (s.trk[L]?).map (s.layerAfter i L) := by
  have on : ∀ ly f, (s.onTrack ly f).trk[L]? =
      (s.trk[L]?).map fun tr => if L = ly then f tr else tr := by
    intro ly f
    rw [State.onTrack_getElem?]
    split <;> simp
  have same : ∀ i, (s.layerAfter i L = fun tr => tr) → (s.trk[L]?).map (s.layerAfter i L) = s.trk[L]? := by
    intro i h
    simp [h]
  cases i
  case start ly md pr base count sf ef =>
    simp only [exec, execStart] at he
    split at he
    · next hl =>
      cases he
      cases hx : s.trk[L]? with
      | none => rfl
      | some u =>
        have : L ≠ ly := by
          rintro rfl
          exact State.not_layers_le hx hl
        simp [State.layerAfter, this]
    · split at he
      · next hf =>
        cases he
        rw [on]
        congr 1
        funext tr
        simp only [State.layerAfter, hf, if_true]
      · next hf =>
        split at he
        · cases he
        · next ds hds =>
          cases he
          rw [on]
          congr 1
          funext tr
          simp only [State.layerAfter, hds, hf]
          rfl
  case trackTick ly =>
    cases he
    rw [on]
    congr 1
    funext tr
    simp only [State.layerAfter]
    by_cases h : L = ly <;> simp [h]
  case layersUpdate =>
    simp only [exec, execLayersUpdate] at he
    split at he
    · cases he
    · cases he
      exact State.advanceAll_getElem? ..
  case stop => cases he; exact on ..
  case setSpeed => cases he; exact on ..
  case pause => cases he; exact on ..
  case resume => cases he; exact on ..
  case restoreSpeed => cases he; exact on ..
  all_goals
    rw [same _ rfl]
    simp only [exec, execNop, execSetLayerInvert, execGetFrame, execCanvasBegin, execCanvasEnd,
      execCanvasToFrame, execCanvasLoadFrame, execCanvasSetPixel, execSetCanvasRotation,
      execSetCanvasInvert, execLedSet, execLedToggle, execLedBlink, execLedNoblink,
      execLedUpdateBlinks, execLedShow, execLedGet, execReadReg] at he
    (repeat' split at he) <;> cases he <;> simp

/-! ## The borrowed rows (20_memory.md R64) -/

/-- In an invariant state the frame a layer shows is one of its rows (10_state.md R33(b)). -/
theorem State.Inv.cur_lt {s : State} (h : s.Inv) {t : Track} (ht : t ∈ s.trk)
    (hc : t.count ≠ 0#16) : t.cur.toNat < t.count.toNat := by
  obtain ⟨h1, h2, h3⟩ := (h.tracks t ht).range hc
  have h2 := BitVec.le_def.mp h2
  have : 0 < t.count.toNat := by
    rcases Nat.eq_zero_or_pos t.count.toNat with h | h
    · exact absurd (BitVec.eq_of_toNat_eq (by simpa using h)) hc
    · exact h
  omega

/-- Under the lifetime contract the frame a layer shows is readable. -/
theorem State.Inv.frame_readable {s : State} (h : s.Inv) (hk : s.Contract) {t : Track}
    (ht : t ∈ s.trk) (hv : t.valid = true) :
   ∀ j, j < 3 → s.readable (rowWord t.base t.cur.toNat j) = true := by
  intro j hj
  have hc : t.count ≠ 0#16 := by simpa [Track.valid] using hv
  exact hk t ht hc _ _ (State.Inv.cur_lt h ht hc) (by omega)

/-- Every layer's tick keeps the contract. -/
theorem State.Contract.advanceAll {s : State} (hk : s.Contract) : s.advanceAll.Contract := by
  intro t ht hc
  rw [List.mem_iff_getElem?] at ht
  obtain ⟨L, hL⟩ := ht
  rw [State.advanceAll_getElem?] at hL
  cases hx : s.trk[L]? with
    | none => rw [hx] at hL; cases hL
    | some u =>
      rw [hx] at hL; cases hL
      rw [Track.advance_frame] at hc ⊢
      exact hk u (List.mem_of_getElem? hx) hc

/-- Readable rows depend on memory only. -/
theorem State.RowsReadable.congr {s t : State} {b c} (hm : t.mem = s.mem) (h : s.RowsReadable b c) :
    t.RowsReadable b c := by
  intro r j hr hj; rw [State.readable_congr hm]; exact h r j hr hj

/-- A change of one layer keeps the contract when the rows it then names are readable. -/
theorem State.Contract.onTrack {s : State} {ly f} (hk : s.Contract)
    (hf : ∀ t, s.trk[ly]? = some t → (f t).count ≠ 0#16 →
      s.RowsReadable (f t).base (f t).count) : (s.onTrack ly f).Contract := by
  intro t ht hc
  apply State.RowsReadable.congr (s := s) rfl
  rw [List.mem_iff_getElem?] at ht
  obtain ⟨L, hL⟩ := ht
  rw [State.onTrack_getElem?] at hL
  split at hL
  · next e =>
    subst e
    cases hx : s.trk[L]? with
    | none => rw [hx] at hL; cases hL
    | some u => rw [hx] at hL; cases hL; exact hf u hx hc
  · exact hk t (List.mem_of_getElem? hL) hc

/-- What leaves layers and memory keeps the contract. -/
theorem State.Contract.congr {s t : State} (hk : s.Contract) (h1 : t.trk = s.trk) (h2 : t.mem = s.mem) :
    t.Contract := by
  intro u hu hc
  apply State.RowsReadable.congr h2
  exact hk u (h1 ▸ hu) hc

/-! ## The loop of 41_layerset.md R160 -/

/-- The state in which layers below `L` have advanced. -/
def State.advancedTo (s : State) (L : Nat) : State :=
  { s with trk := s.trk.mapIdx fun k t => if k < L then t.advance k s.inp.now else t }

/-- One more layer advances. -/
theorem State.advancedTo_succ (s : State) (L : Nat) :
    (State.advancedTo s L).onTrack L (Track.advance L s.inp.now) = State.advancedTo s (L+1) := by
  have : (s.trk.mapIdx fun k t => if k < L then t.advance k s.inp.now else t).modify L
      (Track.advance L s.inp.now) = s.trk.mapIdx fun k t => if k < L+1 then t.advance k s.inp.now else t := by
    apply List.ext_getElem?; intro i
    rw [List.getElem?_modify, List.getElem?_mapIdx, List.getElem?_mapIdx]
    cases s.trk[i]? with
    | none => simp
    | some t =>
      by_cases h : L = i
      · subst h; simp
      · by_cases h' : i < L
        · simp [h, h', show i < L + 1 by omega]
        · simp [h, h', show ¬ i < L + 1 by omega]
  unfold State.onTrack State.advancedTo; simp only [this]

/-- Every layer has advanced. -/
theorem State.advancedTo_all (s : State) : State.advancedTo s s.layers = s.advanceAll := by
  unfold State.advancedTo State.advanceAll State.layers
  congr 1
  apply List.ext_getElem?; intro i
  rw [List.getElem?_mapIdx, List.getElem?_mapIdx]
  by_cases h : i < s.trk.length
  · simp [h]
  · rw [List.getElem?_eq_none (by omega)]; rfl

/-! ## The loop of 43_ledgrid.md R207 -/

/-- `t` is `s` with the cells below `n` processed. -/
structure BlinkedTo (s t : State) (n : Nat) : Prop where
  led : ∀ j : Cell, t.led.getLsbD j.val =
    if j.val < n then (s.led.getLsbD j.val ^^ s.blinkDue j.val) else s.led.getLsbD j.val
  lt : ∀ j : Cell, t.lastToggle[j.val] =
    if j.val < n ∧ s.blinkDue j.val = true then s.inp.now else s.lastToggle[j.val]
  dirty : t.dirty = true ↔ s.dirty = true ∨ ∃ j : Cell, j.val < n ∧ s.blinkDue j.val = true
  fr : t = { s with led := t.led, lastToggle := t.lastToggle, dirty := t.dirty }

/-- One more cell is processed. -/
theorem BlinkedTo.step {s t : State} {i : Cell} (h : BlinkedTo s t i.val) :
    BlinkedTo s (t.blinkCell i) (i.val + 1) := by
  have hint : t.blinkInterval = s.blinkInterval := by rw [h.fr]
  have hinp : t.inp = s.inp := by rw [h.fr]
  have hd : t.blinkDue i.val = s.blinkDue i.val := by
    have e : t.lastToggle[i.val] = s.lastToggle[i.val] := by rw [h.lt]; simp
    rw [Bool.eq_iff_iff, State.blinkDue_cell, State.blinkDue_cell, e, hinp]
    simp only [hint]
  unfold State.blinkCell
  rw [hd]
  by_cases hb : s.blinkDue i.val = true
  · rw [if_pos hb]
    have hl : t.led.getLsbD i.val = s.led.getLsbD i.val := by rw [h.led]; simp
    refine ⟨fun j => ?_, fun j => ?_, ?_, ?_⟩
    · rw [State.setLastToggle_led, State.ledWrite_led, hl]
      by_cases hj : j.val = i.val
      · rw [if_pos hj, if_pos (by omega), hj, hb, Bool.xor_true]
      · rw [if_neg hj, h.led]
        by_cases hji : j.val < i.val
        · rw [if_pos hji, if_pos (by omega)]
        · rw [if_neg hji, if_neg (by omega)]
    · rw [State.setLastToggle_get]
      have : (t.ledWrite i (!t.led.getLsbD i.val)).lastToggle[j.val] = t.lastToggle[j.val] := by rw [State.ledWrite_eq]
      rw [this, h.lt, hinp]
      by_cases hj : j = i
      · subst hj; simp [hb]
      · have : j.val ≠ i.val := fun e => hj (Fin.ext e)
        rw [if_neg hj]
        by_cases hji : j.val < i.val ∧ s.blinkDue j.val = true
        · rw [if_pos hji, if_pos ⟨by omega, hji.2⟩]
        · rw [if_neg hji, if_neg (fun hc => hji ⟨by omega, hc.2⟩)]
    · rw [State.setLastToggle_dirty, State.ledWrite_dirty]
      have : (t.dirty || decide (t.led.getLsbD i.val ≠ !t.led.getLsbD i.val)) = true := by cases t.led.getLsbD i.val <;> simp
      simp only [this, true_iff]
      exact .inr ⟨i, by omega, hb⟩
    · rw [State.ledWrite_eq]
      unfold State.setLastToggle
      rw [h.fr]
  · rw [if_neg hb]
    have hb' : s.blinkDue i.val = false := by simpa using hb
    refine ⟨fun j => ?_, fun j => ?_, ?_, h.fr⟩
    · rw [h.led]
      by_cases hj : j.val = i.val
      · rw [if_neg (by omega), if_pos (by omega), hj, hb', Bool.xor_false]
      · by_cases hji : j.val < i.val
        · rw [if_pos hji, if_pos (by omega)]
        · rw [if_neg hji, if_neg (by omega)]
    · rw [h.lt]
      by_cases hj : j.val = i.val
      · rw [if_neg (by omega), if_neg (by rw [hj, hb']; simp)]
      · by_cases hji : j.val < i.val ∧ s.blinkDue j.val = true
        · rw [if_pos hji, if_pos ⟨by omega, hji.2⟩]
        · rw [if_neg hji, if_neg (fun hc => hji ⟨by omega, hc.2⟩)]
    · rw [h.dirty]
      constructor
      · rintro (h | ⟨j, h1, h2⟩)
        · exact .inl h
        · exact .inr ⟨j, by omega, h2⟩
      · rintro (h | ⟨j, h1, h2⟩)
        · exact .inl h
        · refine .inr ⟨j, ?_, h2⟩
          by_contra hc
          have : j.val = i.val := by omega
          rw [this, hb'] at h2; cases h2

/-- The first `n` cells are processed. -/
theorem State.blinkCell_fold (s : State) : ∀ n, n ≤ 96 →
    BlinkedTo s (((List.finRange 96).take n).foldl State.blinkCell s) n := by
  intro n
  induction n with
  | zero => intro _; refine ⟨fun j => by simp, fun j => by simp, by simp, rfl⟩
  | succ n ih =>
    intro hn
    have : (List.finRange 96).take (n+1) = (List.finRange 96).take n ++ [⟨n, by omega⟩] := by
      rw [List.take_add_one, List.getElem?_eq_getElem (by simp; omega)]; simp
    rw [this, List.foldl_append]
    exact BlinkedTo.step (i := ⟨n, by omega⟩) (ih (by omega))

end Sys2Proof.Machine
end

