-- ==== Sys2Proof/Laws/Memory.lean ====
section
/-! SUPPORT. Animation memory: reads after writes, and the canonical form that every memory
operation keeps. -/

namespace Sys2Proof.Machine

/-- A read after a host write. -/
theorem Memory.read_write (m : Memory) (a b : Nat) (w : Word) :
    (m.write a w).read b = if b = a then some w else m.read b := by
  induction m with
  | nil => simp [Memory.write, Memory.read]
  | cons p m ih =>
    obtain ⟨k, v⟩ := p
    by_cases h1 : a < k
    · simp [Memory.write, h1, Memory.read]
    · by_cases h2 : a = k
      · subst h2
        by_cases hb : b = a <;> simp [Memory.write, Memory.read, hb]
      · by_cases hb : b = k
        · subst hb
          have hne : ¬ b = a := fun e => h2 e.symm
          simp [Memory.write, h1, h2, Memory.read, hne]
        · simp [Memory.write, h1, h2, Memory.read, hb, ih]

/-- A read after a release. -/
theorem Memory.read_release (m : Memory) (a b : Nat) :
    (m.release a).read b = if b = a then Memory.unlisted else m.read b := by
  induction m with
  | nil => simp [Memory.release, Memory.read, Memory.unlisted]
  | cons p m ih =>
    obtain ⟨k, v⟩ := p
    have ih' : Memory.read (List.filter (fun p => p.1 != a) m) b
        = if b = a then Memory.unlisted else Memory.read m b := ih
    by_cases hk : k = a
    · subst hk
      by_cases hb : b = k
      · subst hb
        simpa [Memory.release] using ih'
      · simp [Memory.release, Memory.read, ih', hb]
    · by_cases hb : b = k
      · simp [Memory.release, Memory.read, hk, hb]
      · simp [Memory.release, Memory.read, hk, hb, ih']

/-- Rising addresses: the head is below every later address, and the tail rises. -/
theorem Memory.rising_cons (a : Nat) (w : Word) (m : Memory) :
    Memory.rising ((a, w) :: m) = true ↔ (∀ p ∈ m, a < p.1) ∧ Memory.rising m = true := by
  induction m generalizing a w with
  | nil => simp [Memory.rising]
  | cons p m ih =>
    obtain ⟨b, v⟩ := p
    simp only [Memory.rising, Bool.and_eq_true, decide_eq_true_eq, ih b v, List.mem_cons, forall_eq_or_imp]
    constructor
    · rintro ⟨hab, hb, hr⟩
      exact ⟨⟨hab, fun q hq => Nat.lt_trans hab (hb q hq)⟩, hb, hr⟩
    · rintro ⟨⟨hab, -⟩, hb, hr⟩
      exact ⟨hab, hb, hr⟩

/-- The canonical form of a list with a first entry. -/
theorem Memory.wf_cons (a : Nat) (w : Word) (m : Memory) :
    Memory.wf ((a, w) :: m) = true ↔ (∀ p ∈ m, a < p.1) ∧ a < 2 ^ 32 ∧ Memory.wf m = true := by
  simp only [Memory.wf, Bool.and_eq_true, Memory.rising_cons, List.all_cons, decide_eq_true_eq]
  tauto

/-- An entry of the memory after a write is the one written or an old one. -/
theorem Memory.mem_write {m : Memory} {a : Nat} {w : Word} {p : Nat × Word} (h : p ∈ m.write a w) :
    p = (a, w) ∨ p ∈ m := by
  induction m with
  | nil => simpa [Memory.write] using h
  | cons q m ih =>
    obtain ⟨b, v⟩ := q
    simp only [Memory.write] at h
    split at h
    · simpa using h
    · split at h
      · rcases List.mem_cons.mp h with h | h
        · exact .inl h
        · exact .inr (List.mem_cons_of_mem _ h)
      · rcases List.mem_cons.mp h with h | h
        · exact .inr (h ▸ List.mem_cons_self)
        · exact (ih h).imp id (List.mem_cons_of_mem _)

/-- A host write keeps the canonical form. -/
theorem Memory.write_wf (m : Memory) (a : Nat) (w : Word) (ha : a < 2 ^ 32) (h : m.wf = true) :
    (m.write a w).wf = true := by
  induction m with
  | nil => exact (Memory.wf_cons _ _ _).mpr ⟨by simp, ha, rfl⟩
  | cons p m ih =>
    obtain ⟨b, v⟩ := p
    obtain ⟨hlt, hb, hm⟩ := (Memory.wf_cons b v m).mp h
    simp only [Memory.write]
    split
    · next hab =>
      refine (Memory.wf_cons _ _ _).mpr ⟨fun q hq => ?_, ha, h⟩
      rcases List.mem_cons.mp hq with rfl | hq
      · exact hab
      · exact Nat.lt_trans hab (hlt q hq)
    · split
      · next hab => exact (Memory.wf_cons _ _ _).mpr ⟨hab ▸ hlt, ha, hm⟩
      · refine (Memory.wf_cons _ _ _).mpr ⟨fun q hq => ?_, hb, ih hm⟩
        rcases Memory.mem_write hq with rfl | hq
        · show b < a
          omega
        · exact hlt q hq

/-- A release keeps the canonical form. -/
theorem Memory.release_wf (m : Memory) (a : Nat) (h : m.wf = true) : (m.release a).wf = true := by
  induction m with
  | nil => exact h
  | cons p m ih =>
    obtain ⟨b, v⟩ := p
    obtain ⟨hlt, hb, hm⟩ := (Memory.wf_cons b v m).mp h
    by_cases hk : b = a
    · simpa [Memory.release, hk] using ih hm
    · have : Memory.release ((b, v) :: m) a = (b, v) :: Memory.release m a := by simp [Memory.release, hk]
      rw [this]
      exact (Memory.wf_cons _ _ _).mpr ⟨fun q hq => hlt q (List.mem_of_mem_filter hq), hb, ih hm⟩

/-- An empty memory is in canonical form. -/
theorem Memory.wf_nil : Memory.wf [] = true := rfl

/-- The canonical form says it: two canonical memories that read alike are equal. -/
theorem Memory.eq_of_read_eq {m n : Memory} (hm : m.wf = true) (hn : n.wf = true)
    (h : ∀ a, m.read a = n.read a) : m = n := by
  have below : ∀ {m : Memory} {a : Nat}, (∀ p ∈ m, a < p.1) → m.read a = none := by
    intro m a
    induction m with
    | nil => intro _; rfl
    | cons p m ih =>
      obtain ⟨b, v⟩ := p
      intro hp
      have hab : a ≠ b := Nat.ne_of_lt (hp (b, v) List.mem_cons_self)
      simpa [Memory.read, hab] using ih fun q hq => hp q (List.mem_cons_of_mem _ hq)
  induction m generalizing n with
  | nil =>
    cases n with
    | nil => rfl
    | cons q n =>
      have := h q.1
      simp [Memory.read, Memory.unlisted] at this
  | cons p m ih =>
    obtain ⟨b, v⟩ := p
    cases n with
    | nil =>
      have := h b
      simp [Memory.read, Memory.unlisted] at this
    | cons q n =>
      obtain ⟨c, x⟩ := q
      obtain ⟨hlt, -, hm'⟩ := (Memory.wf_cons b v m).mp hm
      obtain ⟨hlt', -, hn'⟩ := (Memory.wf_cons c x n).mp hn
      have hbc : b = c := by
        rcases Nat.lt_trichotomy b c with hl | he | hl
        · have h1 := h b
          have : Memory.read ((c, x) :: n) b = none :=
            below fun q hq => by
              rcases List.mem_cons.mp hq with rfl | hq
              · exact hl
              · exact Nat.lt_trans hl (hlt' q hq)
          rw [this] at h1
          simp [Memory.read] at h1
        · exact he
        · have h1 := h c
          have : Memory.read ((b, v) :: m) c = none :=
            below fun q hq => by
              rcases List.mem_cons.mp hq with rfl | hq
              · exact hl
              · exact Nat.lt_trans hl (hlt q hq)
          rw [this] at h1
          simp [Memory.read] at h1
      subst hbc
      have hv : v = x := by simpa [Memory.read] using h b
      subst hv
      have : m = n := ih hm' hn' fun a => by
        by_cases ha : a = b
        · subst ha
          rw [below hlt, below hlt']
        · simpa [Memory.read, ha] using h a
      rw [this]

end Sys2Proof.Machine
end

