-- ==== Sys2Proof/Laws/PerInstr.lean ====
section
/-! SUPPORT. Statements about every instruction as syntax, one lemma per constructor. -/

namespace Sys2Proof.Laws.EncodedOpcode

/-- The OP column of the opcode map (30_encoding.md R85). -/
def opcode : Instr → Nat
  | .nop => 0x00
  | .start _ _ _ _ _ _ _ => 0x01
  | .stop _ => 0x02
  | .trackTick _ => 0x03
  | .setSpeed _ _ => 0x04
  | .pause _ => 0x05
  | .resume _ => 0x06
  | .restoreSpeed _ => 0x07
  | .layersUpdate => 0x10
  | .setLayerInvert _ => 0x11
  | .getFrame _ => 0x12
  | .canvasBegin => 0x20
  | .canvasEnd => 0x21
  | .canvasToFrame => 0x22
  | .canvasLoadFrame _ _ _ => 0x23
  | .canvasSetPixel _ _ _ => 0x24
  | .setCanvasRotation _ => 0x25
  | .setCanvasInvert _ => 0x26
  | .ledSet _ _ => 0x30
  | .ledToggle _ => 0x31
  | .ledBlink _ _ => 0x32
  | .ledNoblink _ => 0x33
  | .ledUpdateBlinks => 0x34
  | .ledShow => 0x35
  | .ledGet _ => 0x36
  | .readReg _ _ _ => 0x40

/-- The encoding of an instruction carries its opcode in OP. -/
def Statement (i : Instr) : Prop := (encode i).op.toNat = opcode i

/-- OP of a C0 that names a cell. -/
theorem c0Cell_op (op : BitVec 8) (v : Bool) (cell : CellAddr) :
    (c0Cell op v cell).extractLsb' 24 8 = op := by
  cases cell <;> exact packC0_op ..

theorem nop : Statement .nop := congrArg BitVec.toNat (packC0_op ..)
theorem start (ly : Nat) (md : Mode) (pr : Bool) (base : Word) (count sf ef : Half) :
    Statement (.start ly md pr base count sf ef) := congrArg BitVec.toNat (packC0_op ..)
theorem stop (ly : Nat) : Statement (.stop ly) := congrArg BitVec.toNat (packC0_op ..)
theorem trackTick (ly : Nat) : Statement (.trackTick ly) := congrArg BitVec.toNat (packC0_op ..)
theorem setSpeed (ly : Nat) (ms : Word) : Statement (.setSpeed ly ms) :=
  congrArg BitVec.toNat (packC0_op ..)
theorem pause (ly : Nat) : Statement (.pause ly) := congrArg BitVec.toNat (packC0_op ..)
theorem resume (ly : Nat) : Statement (.resume ly) := congrArg BitVec.toNat (packC0_op ..)
theorem restoreSpeed (ly : Nat) : Statement (.restoreSpeed ly) := congrArg BitVec.toNat (packC0_op ..)
theorem layersUpdate : Statement .layersUpdate := congrArg BitVec.toNat (packC0_op ..)
theorem setLayerInvert (v : Bool) : Statement (.setLayerInvert v) := congrArg BitVec.toNat (packC0_op ..)
theorem getFrame (ly : Nat) : Statement (.getFrame ly) := congrArg BitVec.toNat (packC0_op ..)
theorem canvasBegin : Statement .canvasBegin := congrArg BitVec.toNat (packC0_op ..)
theorem canvasEnd : Statement .canvasEnd := congrArg BitVec.toNat (packC0_op ..)
theorem canvasToFrame : Statement .canvasToFrame := congrArg BitVec.toNat (packC0_op ..)
theorem canvasLoadFrame (w0 w1 w2 : Word) : Statement (.canvasLoadFrame w0 w1 w2) :=
  congrArg BitVec.toNat (packC0_op ..)
theorem canvasSetPixel (x y : Nat) (v : Bool) : Statement (.canvasSetPixel x y v) :=
  congrArg BitVec.toNat (packC0_op ..)
theorem setCanvasRotation (rot : Rotation) : Statement (.setCanvasRotation rot) :=
  congrArg BitVec.toNat (packC0_op ..)
theorem setCanvasInvert (v : Bool) : Statement (.setCanvasInvert v) := congrArg BitVec.toNat (packC0_op ..)
theorem ledSet (cell : CellAddr) (v : Bool) : Statement (.ledSet cell v) :=
  congrArg BitVec.toNat (c0Cell_op ..)
theorem ledToggle (cell : CellAddr) : Statement (.ledToggle cell) := congrArg BitVec.toNat (c0Cell_op ..)
theorem ledBlink (cell : CellAddr) (rate : Word) : Statement (.ledBlink cell rate) :=
  congrArg BitVec.toNat (c0Cell_op ..)
theorem ledNoblink (cell : CellAddr) : Statement (.ledNoblink cell) := congrArg BitVec.toNat (c0Cell_op ..)
theorem ledUpdateBlinks : Statement .ledUpdateBlinks := congrArg BitVec.toNat (packC0_op ..)
theorem ledShow : Statement .ledShow := congrArg BitVec.toNat (packC0_op ..)
theorem ledGet (cell : CellAddr) : Statement (.ledGet cell) := congrArg BitVec.toNat (c0Cell_op ..)
theorem readReg (ly reg : Nat) (index : Word) : Statement (.readReg ly reg index) :=
  congrArg BitVec.toNat (packC0_op ..)

end Sys2Proof.Laws.EncodedOpcode
end

