-- ==== Sys2Proof/Tests/Slice0.lean ====
section
/-! SUPPORT. The model's own tests: ill-formed terms refused, words of the spec decoded, one step at a
time against the vectors of 95_test_vectors.md, and for every statement with hypotheses a concrete
case that meets them. Expected values come from spec/, never from the model. -/

namespace Sys2Proof.Tests

open Sys2Proof.Machine Sys2Proof.Claims

/-! ## Small states (95_test_vectors.md section 0) -/

/-- An instance of the rotation maps for tests: no cell has a source. -/
def noRot : RotMap := Vector.replicate 96 none

/-- The rows of an animation as memory cells, each `[w0, w1, w2, duration]` (20_memory.md R62). -/
def rows (base : Nat) : List (Word × Word × Word × Word) → Memory
  | [] => []
  | (w0, w1, w2, d) :: rs =>
    (base, w0) :: (base + 1, w1) :: (base + 2, w2) :: (base + 3, d) :: rows (base + 4) rs

/-- Fixture A. -/
def memA : Memory := rows 0x100 [(0x80000000, 0, 0, 100), (0x40000000, 0, 0, 100), (0x20000000, 0, 0, 100)]

/-- Fixture B. -/
def memB : Memory := rows 0x200 [(0, 0, 1, 150), (0, 0, 2, 150)]

/-- Fixture T, and six rows more so that 16 rows stand there. -/
def memT : Memory := rows 0x300 ((List.range 16).map fun r => (BitVec.ofNat 32 r, 0, 0, 100))

/-- Layer 0 after `@0 START L0, LOOP, 0x100, 3, 0, 0` (V21's START at NOW 0). -/
def trkA : Track :=
  { Track.reset with state := .playing, mode := .loop, e := 2#16, count := 3#16, base := 0x100#32,
                     timing := [100#32, 100#32, 100#32] }

/-- Layer 1 after `@0 START L1, LOOP, 0x200, 2, 0, 0`. -/
def trkB : Track :=
  { Track.reset with state := .playing, mode := .loop, e := 1#16, count := 2#16, base := 0x200#32,
                     timing := [150#32, 150#32] }

/-- Layer 0 after V1: 10 frames, range 5 down to 2. -/
def trkBack : Track :=
  { Track.reset with state := .playing, mode := .loop, dir := .bwd, cur := 4#16, s := 1#16, e := 4#16,
                     count := 10#16, base := 0x300#32, timing := List.replicate 10 100#32 }

/-- The reset state with the test instance of the parameters and fixtures A and B in memory. -/
def s0 : State := { State.reset with params := ⟨16, noRot, noRot⟩, mem := memA ++ memB }

/-- The state with these two layers and three idle ones. -/
def two (t u : Track) : State := { s0 with trk := [t, u, Track.reset, Track.reset, Track.reset] }

/-- The state with this layer 0. -/
def one (t : Track) : State := two t Track.reset

/-- The state at a NOW. -/
def now (n : Word) (s : State) : State := { s with inp := ⟨n, []⟩ }

/-- The state with one host event pending. -/
def offered (e : HostEvent) (s : State) : State := { s with pending := [e] }

/-- What a result that is a next state shows of it. -/
def sees {α : Type} (f : State → α) : Result → Option α
  | .next s => some (f s)
  | _ => none

/-- The fault of a result. -/
def faultOf : Result → Option Fault
  | .fault f => some f
  | _ => none

/-- (state, cur, isRev, lastUpdate) of layer 0, as 95_test_vectors.md writes it. -/
def shown (s : State) : Option (PlayState × Half × Bool × Word) :=
  (s.trk[0]?).map fun t => (t.state, t.cur, t.isRev, t.lastUpdate)

/-! ## WellFormed refuses ill-formed terms (30_encoding.md R82, R83) -/

theorem test_wf_layer : (Instr.stop 8).wellFormed = false ∧ (Instr.stop 7).wellFormed = true := by decide
theorem test_wf_start_layer :
    (Instr.start 8 .loop true 0 1 0 0).wellFormed = false := by decide
theorem test_wf_pixel_x : (Instr.canvasSetPixel 256 0 true).wellFormed = false := by decide
theorem test_wf_pixel_y : (Instr.canvasSetPixel 0 256 true).wellFormed = false := by decide
theorem test_wf_cell_x : (Instr.ledToggle (.xy 256 0)).wellFormed = false := by decide
theorem test_wf_cell_y : (Instr.ledSet (.xy 0 256) true).wellFormed = false := by decide
theorem test_wf_cell_linear : (Instr.ledBlink (.linear 256) 1).wellFormed = false := by decide
theorem test_wf_register : (Instr.readReg 0 256 0).wellFormed = false := by decide
theorem test_wf_register_layer : (Instr.readReg 8 0 0).wellFormed = false := by decide

/-! ## Words of the spec decode to what they stand for -/

/-- Track words of P1, P2, P4, V23, V26, V27, V74: OP, LY in [23:21], MD in [20:19], PR in [18]. -/
theorem test_decode_track :
    decode ⟨0x010C0000, 0x100, 3, 0⟩ = .ok (.start 0 .loop true 0x100 3 0 0) ∧
    decode ⟨0x01540000, 0x100, 3, 0⟩ = .ok (.start 2 .boomerang true 0x100 3 0 0) ∧
    decode ⟨0x011C0000, 0x100, 3, 0⟩ = .ok (.start 0 .boomerangOnce true 0x100 3 0 0) ∧
    decode ⟨0x01240000, 0x200, 2, 0⟩ = .ok (.start 1 .once true 0x200 2 0 0) ∧
    decode ⟨0x01080000, 0, 3, 0⟩ = .ok (.start 0 .loop false 0 3 0 0) ∧
    decode ⟨0x010C0000, 0x100, 3, 0x00020003⟩ = .ok (.start 0 .loop true 0x100 3 2 3) ∧
    decode ⟨0x0200FFFF, 0, 0, 0⟩ = .ok (.stop 0) ∧
    decode ⟨0x03400000, 0, 0, 0⟩ = .ok (.trackTick 2) ∧
    decode ⟨0x04400000, 0x14, 0, 0⟩ = .ok (.setSpeed 2 20) ∧
    decode ⟨0x05400000, 0, 0, 0⟩ = .ok (.pause 2) ∧
    decode ⟨0x06400000, 0, 0, 0⟩ = .ok (.resume 2) ∧
    decode ⟨0x07400000, 0, 0, 0⟩ = .ok (.restoreSpeed 2) :=
  ⟨rfl, rfl, rfl, rfl, rfl, rfl, rfl, rfl, rfl, rfl, rfl, rfl⟩

/-- Layer-set words of V30, V33, V29. -/
theorem test_decode_layerset :
    decode ⟨0x10000000, 0, 0, 0⟩ = .ok .layersUpdate ∧
    decode ⟨0x11010000, 0, 0, 0⟩ = .ok (.setLayerInvert true) ∧
    decode ⟨0x12E00000, 0, 0, 0⟩ = .ok (.getFrame 7) := ⟨rfl, rfl, rfl⟩

/-- Canvas words of V40 to V47. -/
theorem test_decode_canvas :
    decode ⟨0x20000000, 0, 0, 0⟩ = .ok .canvasBegin ∧
    decode ⟨0x21000000, 0, 0, 0⟩ = .ok .canvasEnd ∧
    decode ⟨0x22000000, 0, 0, 0⟩ = .ok .canvasToFrame ∧
    decode ⟨0x23000000, 0x12345678, 0x9ABCDEF0, 0x0F0FF0F0⟩
      = .ok (.canvasLoadFrame 0x12345678 0x9ABCDEF0 0x0F0FF0F0) ∧
    decode ⟨0x24010C00, 0, 0, 0⟩ = .ok (.canvasSetPixel 12 0 true) ∧
    decode ⟨0x24010008, 0, 0, 0⟩ = .ok (.canvasSetPixel 0 8 true) ∧
    decode ⟨0x25000000, 2, 0, 0⟩ = .ok (.setCanvasRotation .deg180) ∧
    decode ⟨0x26010000, 0, 0, 0⟩ = .ok (.setCanvasInvert true) :=
  ⟨rfl, rfl, rfl, rfl, rfl, rfl, rfl, rfl⟩

/-- LED words of V50 to V62. -/
theorem test_decode_led :
    decode ⟨0x30011400, 0, 0, 0⟩ = .ok (.ledSet (.xy 20 0) true) ∧
    decode ⟨0x30030DC8, 0, 0, 0⟩ = .ok (.ledSet (.linear 13) true) ∧
    decode ⟨0x31025F00, 0, 0, 0⟩ = .ok (.ledToggle (.linear 95)) ∧
    decode ⟨0x32000100, 0x12C, 0, 0⟩ = .ok (.ledBlink (.xy 1 0) 300) ∧
    decode ⟨0x33000000, 0, 0, 0⟩ = .ok (.ledNoblink (.xy 0 0)) ∧
    decode ⟨0x34000000, 0, 0, 0⟩ = .ok .ledUpdateBlinks ∧
    decode ⟨0x35000000, 0, 0, 0⟩ = .ok .ledShow ∧
    decode ⟨0x36000302, 0, 0, 0⟩ = .ok (.ledGet (.xy 3 2)) :=
  ⟨rfl, rfl, rfl, rfl, rfl, rfl, rfl, rfl⟩

/-- System words of V70, V72, V73; an undefined opcode is rejected by name. -/
theorem test_decode_system :
    decode ⟨0, 0, 0, 0⟩ = .ok .nop ∧
    decode ⟨0x40200000, 2, 0, 0⟩ = .ok (.readReg 1 2 0) ∧
    decode ⟨0x40000000, 8, 0x00010002, 0⟩ = .ok (.readReg 0 8 0x00010002) ∧
    decode ⟨0x08000000, 1, 2, 3⟩ = .error (.undefinedOpcode 0x08) ∧
    decode ⟨0xFF000000, 0, 0, 0⟩ = .error (.undefinedOpcode 0xFF) ∧
    decodeWords [0, 0, 0] = .error (.tooFewWords 3) := ⟨rfl, rfl, rfl, rfl, rfl, rfl⟩

/-- 30_encoding.md R99: words numbered as the opcode table numbers them. -/
theorem test_decodeTableWord :
    decodeTableWord 32 0x30010B07 = some (.ledSet (.xy 11 7) true) ∧
    decodeTableWord 32 0x08000000 = none := ⟨rfl, rfl⟩

/-- The word offered is the one the next step runs. -/
theorem test_withFetchWord :
    sees shown (step ((one trkA).withFetchWord 32 0x02000000)) = some (some (.idle, 0, false, 0)) := by
  decide

/-! ## One step each, against the vectors -/

/-- V73. -/
theorem test_nop : exec .nop (one trkA) = .next (one trkA) := rfl

/-- V1: range 5 to 2 of 10 frames plays backward from index 4. -/
theorem test_start_backward :
    sees (fun t => (t.trk[0]?).map fun u => (u.s, u.e, u.dir, u.cur, u.state))
      (exec (.start 0 .once true 0x300 10 5 2) { s0 with mem := memT })
      = some (some (1, 4, .bwd, 4, .playing)) ∧
    sees (fun t => (t.trk[0]?).map fun u => u.timing)
      (exec (.start 0 .once true 0x300 10 5 2) { s0 with mem := memT })
      = some (some (List.replicate 10 100)) := by decide

/-- V38: rows at 0x7FC, the second outside the readable words. -/
theorem test_start_fault :
    faultOf (exec (.start 0 .loop true 0x7FC 2 0 0) { s0 with mem := rows 0x7FC [(0, 0, 0, 100)] })
      = some (.animReadOutsideWindow 0x803) := by decide

/-- V28. -/
theorem test_stop :
    sees (fun t => regValue t 0 0 0) (exec (.stop 0) (one trkA)) = some 0x00000004 := by decide

/-- V18: the due tick 4 of BOOMERANG_ONCE on 3 frames completes and keeps index, phase and time. -/
theorem test_tick_completes :
    sees shown (exec (.trackTick 0) (now 400 (one { trkA with
        mode := .boomerangOnce, cur := 1, isRev := true, lastUpdate := 300 })))
      = some (some (.completed, 1, true, 300)) := by decide

/-- V21: 99 ms across the wrap of the clock are not due, 100 are. -/
theorem test_tick_clock_wrap :
    sees shown (exec (.trackTick 0) (now 0x53 (one { trkA with lastUpdate := 0xFFFFFFF0 })))
      = some (some (.playing, 0, false, 0xFFFFFFF0)) ∧
    sees shown (exec (.trackTick 0) (now 0x54 (one { trkA with lastUpdate := 0xFFFFFFF0 })))
      = some (some (.playing, 1, false, 0x54)) := by decide

/-- V24: SET_SPEED 40 at NOW 500 resumes a paused layer. -/
theorem test_setSpeed :
    sees (fun t => (t.trk[0]?).map fun u => (u.state, u.speed, u.isCustom, u.lastUpdate))
      (exec (.setSpeed 0 40) (now 500 (one { trkA with state := .paused })))
      = some (some (.playing, 40, true, 500)) := by decide

/-- V25: SET_SPEED on a COMPLETED layer records the speed and leaves the state. -/
theorem test_setSpeed_completed :
    sees (fun t => (t.trk[0]?).map fun u => (u.state, u.speed))
      (exec (.setSpeed 0 40) (now 500 (one { trkA with state := .completed, mode := .once })))
      = some (some (.completed, 40)) := by decide

/-- V26. -/
theorem test_pause : sees shown (exec (.pause 0) (now 150 (one trkA)))
    = some (some (.paused, 0, false, 0)) := by decide

/-- V26. -/
theorem test_resume : sees shown (exec (.resume 0) (now 5000 (one { trkA with state := .paused })))
    = some (some (.playing, 0, false, 5000)) := by decide

/-- V27. -/
theorem test_restoreSpeed :
    sees (fun t => (t.trk[0]?).map fun u => (u.state, u.speed, u.isCustom, u.lastUpdate))
      (exec (.restoreSpeed 0) (now 90 (one { trkA with state := .paused, speed := 20, isCustom := true })))
      = some (some (.playing, 0, false, 90)) := by decide

/-- V30. -/
theorem test_layersUpdate_or :
    sees (fun t => t.sink) (exec .layersUpdate (now 0 (two trkA trkB)))
      = some [⟨0x80000000, 0, 1⟩] := by decide +kernel

/-- V33 with invert, no layer contributing. -/
theorem test_layersUpdate_invert :
    sees (fun t => t.sink) (exec .layersUpdate { s0 with layerInvert := true })
      = some [⟨0xFFFFFFFF, 0xFFFFFFFF, 0xFFFFFFFF⟩] := by decide +kernel

/-- V33. -/
theorem test_setLayerInvert :
    sees (fun t => (t.layerInvert, t.sink)) (exec (.setLayerInvert true) s0) = some (true, []) := by decide

/-- V37. -/
theorem test_getFrame :
    sees (fun t => t.responses) (exec (.getFrame 0) (one { trkA with cur := 1 }))
      = some [⟨1, 0x40000000, 0, 0⟩] ∧
    sees (fun t => t.responses) (exec (.getFrame 1) (one trkA)) = some [⟨0, 0, 0, 0⟩] := by decide

/-- V47. -/
theorem test_canvasBegin : exec .canvasBegin s0 = .next s0 := rfl

/-- V43: 180°, then V44: the invert after it. -/
theorem test_canvasEnd :
    sees (fun t => t.sink) (exec .canvasEnd { s0 with canvas := 3, rotation := .deg180 })
      = some [⟨0, 0, 3⟩] ∧
    sees (fun t => t.sink) (exec .canvasEnd { s0 with canvas := 1, rotation := .deg180, canvasInvert := true })
      = some [⟨0xFFFFFFFF, 0xFFFFFFFF, 0xFFFFFFFE⟩] := by decide +kernel

/-- V49, and 42_canvas.md R182: a cell that the map leaves without a source reads 0 before the invert. -/
theorem test_canvasToFrame :
    sees (fun t => t.responses) (exec .canvasToFrame { s0 with canvasInvert := true })
      = some [⟨1, 0xFFFFFFFF, 0xFFFFFFFF, 0xFFFFFFFF⟩] ∧
    sees (fun t => t.responses) (exec .canvasToFrame { s0 with canvas := ones96, rotation := .deg90 })
      = some [⟨1, 0, 0, 0⟩] := by decide +kernel

/-- V46: the load is not rotated; 42_canvas.md R188: the last bit of W2 is cell 95. -/
theorem test_canvasLoadFrame :
    sees (fun t => t.canvas) (exec (.canvasLoadFrame 0x80000000 0 1) { s0 with rotation := .deg180 })
      = some (1#96 ||| (1#96 <<< 95)) := by decide +kernel

/-- V48 (cells 28 and 95), V45. -/
theorem test_canvasSetPixel :
    sees (fun t => t.canvas) (exec (.canvasSetPixel 4 2 true) s0) = some (1#96 <<< 28) ∧
    sees (fun t => t.canvas) (exec (.canvasSetPixel 11 7 true) s0) = some (1#96 <<< 95) ∧
    sees (fun t => t.canvas) (exec (.canvasSetPixel 12 0 true) s0) = some 0 := by decide +kernel

/-- 42_canvas.md R189. -/
theorem test_setCanvasRotation :
    sees (fun t => t.rotation) (exec (.setCanvasRotation .deg270) { s0 with rotation := .deg180 })
      = some .deg270 := by decide

/-- 42_canvas.md R190: not the layer invert. -/
theorem test_setCanvasInvert :
    sees (fun t => (t.canvasInvert, t.layerInvert)) (exec (.setCanvasInvert true) s0)
      = some (true, false) := by decide

/-- V51: a set shows, a second set of the same value does not. -/
theorem test_ledSet :
    sees (fun t => t.sink) (exec (.ledSet (.xy 0 0) true) s0) = some [⟨0x80000000, 0, 0⟩] ∧
    sees (fun t => t.sink) (exec (.ledSet (.xy 0 0) true) { s0 with led := 1 }) = some [] := by
  decide +kernel

/-- V62 and V60: cell 13, and the cancelled blink. -/
theorem test_ledSet_linear :
    sees (fun t => t.sink) (exec (.ledSet (.linear 13) true) s0) = some [⟨0x00040000, 0, 0⟩] ∧
    sees (fun t => (t.blinkInterval[0], t.sink)) (exec (.ledSet (.xy 0 0) true)
      (s0.setInterval 0 100 |>.ledWrite 0 true |> fun s => { s with dirty := false })) = some (0, []) := by
  decide +kernel

/-- V56. -/
theorem test_ledToggle :
    sees (fun t => t.sink) (exec (.ledToggle (.linear 95)) s0) = some [⟨0, 0, 1⟩] := by decide +kernel

/-- V52; V57: rate 0 clears the interval and nothing else. -/
theorem test_ledBlink :
    sees (fun t => (t.blinkInterval[0], t.lastToggle[0], t.sink))
      (exec (.ledBlink (.xy 0 0) 100) (now 7 s0)) = some (100, 7, [⟨0x80000000, 0, 0⟩]) ∧
    sees (fun t => (t.blinkInterval[0], t.lastToggle[0], t.led, t.sink))
      (exec (.ledBlink (.xy 0 0) 0) (now 50 { s0.setInterval 0 100 with led := 1 }))
      = some (0, 0, 1, []) := by decide +kernel

/-- V58: the cell keeps its phase. -/
theorem test_ledNoblink :
    sees (fun t => (t.blinkInterval[0], t.led)) (exec (.ledNoblink (.xy 0 0)) (s0.setInterval 0 100))
      = some (0, 0) := by decide +kernel

/-- V55 at NOW 100 and 300: one cell due, then both, one write each. -/
theorem test_ledUpdateBlinks :
    sees (fun t => t.sink) (exec .ledUpdateBlinks
      (now 100 { (s0.setInterval 0 100).setInterval 1 300 with led := 3 })) = some [⟨0x40000000, 0, 0⟩] ∧
    sees (fun t => (t.sink, t.lastToggle[0], t.lastToggle[1], t.lastToggle[2])) (exec .ledUpdateBlinks
      (now 300 { ((s0.setInterval 0 100).setInterval 1 300).setLastToggle 0 200 with led := 3 }))
      = some ([⟨0, 0, 0⟩], 300, 300, 0) := by decide +kernel

/-- V53 and V63: 99 ms are not due, also across the wrap of the clock. -/
theorem test_ledUpdateBlinks_not_due :
    sees (fun t => (t.led, t.sink)) (exec .ledUpdateBlinks
      (now 0x23 { (s0.setInterval 0 100).setLastToggle 0 0xFFFFFFC0 with led := 1 })) = some (1, []) := by
  decide +kernel

/-- V61, and 43_ledgrid.md R202 on a dirty grid. -/
theorem test_ledShow :
    sees (fun t => t.sink) (exec .ledShow { s0 with led := 1 }) = some [] ∧
    sees (fun t => (t.sink, t.dirty)) (exec .ledShow { s0 with led := 1, dirty := true })
      = some ([⟨0x80000000, 0, 0⟩], false) := by decide +kernel

/-- V59. -/
theorem test_ledGet :
    sees (fun t => t.responses) (exec (.ledGet (.xy 3 2)) { s0.setInterval 27 250 with led := 1 <<< 27 })
      = some [⟨7, 0, 0, 0⟩] ∧
    sees (fun t => t.responses) (exec (.ledGet (.linear 96)) s0) = some [⟨0, 0, 0, 0⟩] := by decide +kernel

/-- V70: after V1's range in LOOP mode; V71. -/
theorem test_readReg :
    sees (fun t => t.responses) (exec (.readReg 0 0 0) (one trkBack)) = some [⟨0x95, 0, 0, 0⟩] ∧
    sees (fun t => t.responses) (exec (.readReg 0 0x1E 0) s0) = some [⟨0x00100005, 0, 0, 0⟩] ∧
    sees (fun t => t.responses) (exec (.readReg 0 0x1F 0) s0) = some [⟨0x54464601, 0, 0, 0⟩] := by decide

/-- V72: the index of the timing array is its low half. -/
theorem test_readReg_timing :
    sees (fun t => t.responses) (exec (.readReg 0 8 0x00010002) (one trkA)) = some [⟨100, 0, 0, 0⟩] ∧
    sees (fun t => t.responses) (exec (.readReg 0 8 3) (one trkA)) = some [⟨0, 0, 0, 0⟩] := by decide

/-- V73: an undefined opcode takes the command and changes nothing else. -/
theorem test_undefined_opcode :
    sees (fun t => (t.trk, t.sink, t.responses, t.pending))
      (step (offered (.command ⟨0x13000000, 1, 2, 3⟩ ⟨9, []⟩) (one trkA)))
      = some ((one trkA).trk, [], [], []) := by decide

/-- 20_memory.md R70(b), R64: a host write is seen by the next fetch, a released word faults. -/
theorem test_host_events :
    sees (fun t => t.mem.read 0x104) (step (offered (.writeWord 0x104 5) s0)) = some (some 5) ∧
    sees (fun t => t.mem.read 0x104) (step (offered (.releaseWord 0x104) s0)) = some none := by decide

/-! ## The hypotheses of the statements can be met -/

theorem ok_trkA : trkA.Ok 16 := ⟨by decide, by decide, by decide, by decide, by decide, by decide, by decide⟩

theorem inv_one : (one trkA).Inv := by
  refine ⟨?_, rfl, by decide, by decide, by decide⟩
  have r : Track.reset.Ok 16 :=
    ⟨by decide, by decide, by decide, by decide, by decide, by decide, by decide⟩
  intro t h
  have h' : t = trkA ∨ t = Track.reset := by
    simp only [one, two, List.mem_cons, List.not_mem_nil, or_false] at h
    tauto
  rcases h' with rfl | rfl
  · exact ok_trkA
  · exact r

theorem rows_readable : (one trkA).RowsReadable 0x100 3 := by
  have h : ∀ r, r < 3 → ∀ j, j < 4 → (one trkA).readable (rowWord 0x100 r j) = true := by decide
  exact fun r j hr hj => h r hr j hj

theorem contract_one : (one trkA).Contract := by
  intro t h hc
  have h' : t = trkA ∨ t = Track.reset := by
    simp only [one, two, List.mem_cons, List.not_mem_nil, or_false] at h
    tauto
  rcases h' with rfl | rfl
  · exact rows_readable
  · exact absurd rfl hc

/-- At the largest value of every operand field. -/
theorem witness_DecodeOfEncodeIsIdentity :
    (Instr.start 7 .boomerangOnce true 0xFFFFFFFF 0xFFFF 0xFFFF 0xFFFF).wellFormed = true ∧
    (Instr.ledSet (.xy 255 255) true).wellFormed = true ∧
    (Instr.ledBlink (.linear 255) 0xFFFFFFFF).wellFormed = true ∧
    (Instr.readReg 7 255 0xFFFFFFFF).wellFormed = true := by decide

/-- V74's STOP with X and Y set, and V62's LED_SET with the Y field 200. -/
theorem witness_UnusedBitsChangeNothing :
    agreeOn (usedBits 0x02 false) ⟨0x0200FFFF, 1, 2, 3⟩ ⟨0x02000000, 0, 0, 0⟩ ∧
    agreeOn (usedBits 0x30 true) ⟨0x30030DC8, 0, 0, 0⟩ ⟨0x30030D00, 0, 0, 0⟩ :=
  ⟨⟨rfl, rfl, rfl, rfl⟩, ⟨rfl, rfl, rfl, rfl⟩⟩

/-- Each range of 30_encoding.md R94 at both ends, with a pending command. -/
theorem witness_UndefinedOpcodesAreSilentNoOps :
    (∀ op ∈ [0x08, 0x0F, 0x13, 0x1F, 0x27, 0x2F, 0x37, 0x3F, 0x41, 0xFF], undefinedOpcode op) ∧
    undefinedOpcode (Command.mk 0x08000000 0 0 0).op.toNat ∧
    (offered (.command ⟨0x08000000, 0, 0, 0⟩ ⟨3, []⟩) s0).pending
      = .command ⟨0x08000000, 0, 0, 0⟩ ⟨3, []⟩ :: [] := by
  refine ⟨?_, Or.inl (by decide), rfl⟩
  intro op h
  simp only [List.mem_cons, List.not_mem_nil, or_false] at h
  unfold undefinedOpcode
  omega

theorem witness_OpAloneSelectsTheCommand :
    decode ⟨0x40FFFFFF, 0, 0, 0⟩ = .ok (.readReg 7 0 0) ∧ 0x40 ∈ tableOpcodes := ⟨rfl, by decide⟩

theorem witness_StepRunsTheDecodedInstruction :
    (offered (.command ⟨0x03000000, 0, 0, 0⟩ ⟨100, []⟩) (one trkA)).pending
      = .command ⟨0x03000000, 0, 0, 0⟩ ⟨100, []⟩ :: [] ∧
    decode ⟨0x03000000, 0, 0, 0⟩ = .ok (.trackTick 0) := ⟨rfl, rfl⟩

/-- One state for each clause. -/
theorem witness_HostEventsBetweenCommands :
    s0.pending = [] ∧ (offered (.writeWord 0xFFFFFFFF 5) s0).pending = .writeWord 0xFFFFFFFF 5 :: [] ∧
    (offered (.releaseWord 0x100) s0).pending = .releaseWord 0x100 :: [] := ⟨rfl, rfl, rfl⟩

theorem witness_ResetInputResetsTheBlock : (offered .reset (one trkA)).pending = .reset :: [] := rfl

theorem witness_EveryStepKeepsTheInvariant : (one trkA).Inv ∧ step (one trkA) = .next (one trkA) :=
  ⟨inv_one, rfl⟩

theorem witness_CommandsWriteNoMemoryAndNoParameter :
    exec (.stop 0) (one trkA) = .next ((one trkA).onTrack 0 Track.release) := rfl

/-- A command that changes the field, for each clause. -/
theorem witness_FieldsChangeOnlyByTheirCommands :
    sees (fun t => decide (t.trk ≠ (one trkA).trk)) (exec (.stop 0) (one trkA)) = some true ∧
    sees (fun t => decide (t.layerInvert ≠ s0.layerInvert)) (exec (.setLayerInvert true) s0) = some true ∧
    sees (fun t => decide (t.canvas ≠ s0.canvas)) (exec (.canvasSetPixel 11 7 true) s0) = some true ∧
    sees (fun t => decide (t.rotation ≠ s0.rotation)) (exec (.setCanvasRotation .deg90) s0) = some true ∧
    sees (fun t => decide (t.canvasInvert ≠ s0.canvasInvert)) (exec (.setCanvasInvert true) s0) = some true ∧
    sees (fun t => decide (t.led ≠ s0.led)) (exec (.ledToggle (.linear 95)) s0) = some true ∧
    sees (fun t => decide (t.blinkInterval ≠ s0.blinkInterval)) (exec (.ledBlink (.linear 95) 1) s0)
      = some true ∧
    sees (fun t => decide (t.lastToggle ≠ s0.lastToggle)) (exec (.ledBlink (.linear 95) 1) (now 1 s0))
      = some true ∧
    sees (fun t => decide (t.dirty ≠ true)) (exec .ledShow { s0 with dirty := true }) = some true := by
  decide +kernel

theorem witness_OnlyReadCommandsRespond :
    isReadCommand (.getFrame 7) ∧ exec (.getFrame 7) s0 = .next (s0.respond ⟨0, 0, 0, 0⟩) ∧
    ¬ isReadCommand .nop ∧ exec .nop s0 = .next s0 := ⟨trivial, rfl, id, rfl⟩

theorem witness_SinkWritesAtMostOncePerCommand :
    sees (fun t => decide (t.sink ≠ s0.sink)) (exec .canvasEnd s0) = some true ∧
    sees (fun t => decide (t.sink ≠ s0.sink)) (exec (.ledToggle (.xy 0 0)) s0) = some true := by
  decide +kernel

theorem witness_NoCommandFaultsUnderTheContract :
    (one trkA).Inv ∧ (one trkA).Contract ∧ RowsNamedReadable (one trkA) (.start 4 .loop true 0x100 3 0 0) :=
  ⟨inv_one, contract_one, fun _ _ => rows_readable⟩

/-- One frame, and as many as MAX_FRAMES. -/
theorem witness_StartLoadsTheAnimation :
    ({ s0 with mem := memT } : State).trk[4]? = some Track.reset ∧
    (1#16 ≠ 0#16 ∧ (1#16).toNat ≤ s0.params.maxFrames) ∧
    (16#16 ≠ 0#16 ∧ (16#16).toNat ≤ s0.params.maxFrames) ∧
    ∀ k, k < (16#16).toNat →
      ({ s0 with mem := memT } : State).readable (0x300#32 + BitVec.ofNat 32 (4 * k + 3)) = true := by decide

/-- Each reason to fail. -/
theorem witness_StartFailsIntoIdle :
    (one trkA).trk[0]? = some trkA ∧ (false = false ∨ (3#16) = 0#16 ∨ s0.params.maxFrames < (3#16).toNat) ∧
    (true = false ∨ (0#16) = 0#16 ∨ s0.params.maxFrames < (0#16).toNat) ∧
    (true = false ∨ (17#16) = 0#16 ∨ s0.params.maxFrames < (17#16).toNat) := by decide

/-- The first word, and a later one, outside the readable words. -/
theorem witness_StartFaultsOnFirstUnreadableDuration :
    0 < s0.layers ∧ (2#16).toNat ≤ s0.params.maxFrames ∧
    (1 < (2#16).toNat ∧
      (∀ j, j < 1 → ({ s0 with mem := rows 0x7FC [(0, 0, 0, 100)] } : State).readable
        (0x7FC#32 + BitVec.ofNat 32 (4 * j + 3)) = true) ∧
      ({ s0 with mem := rows 0x7FC [(0, 0, 0, 100)] } : State).readable
        (0x7FC#32 + BitVec.ofNat 32 (4 * 1 + 3)) = false) ∧
    (0 < (2#16).toNat ∧ ({ s0 with mem := [] } : State).readable
        (0x7FC#32 + BitVec.ofNat 32 (4 * 0 + 3)) = false) := by decide

/-- Each reason to do nothing: not playing, no animation, one millisecond short. -/
theorem witness_TickThatIsNotDueChangesNothing :
    (one { trkA with state := .paused }).trk[0]? = some { trkA with state := .paused } ∧
    ({ trkA with state := .paused } : Track).state ≠ .playing ∧
    ({ trkA with count := 0 } : Track).count = 0#16 ∧ ¬ expired 0 99 trkA := by decide

/-- Forward and backward, inside the range and at its bound, in both modes, the interval just passed. -/
theorem witness_DueTickStepsOnceAndLoop :
    (∀ tr ∈ [trkA, { trkA with cur := 2 }, { trkA with mode := .once, cur := 2 }, trkBack,
        { trkBack with cur := 1 }, { trkBack with mode := .once, cur := 1 }],
      (one tr).trk[0]? = some tr ∧ tr.state = .playing ∧ tr.count ≠ 0#16 ∧ expired 0 100 tr ∧
      (tr.mode = .once ∨ tr.mode = .loop)) := by decide

/-- A case for each clause, at the bounds where the clauses meet. -/
theorem witness_DueTickStepsBoomerang :
    (∀ p ∈ [(({ trkBack with mode := .boomerang } : Track), 0, false),
        ({ trkBack with mode := .boomerang, cur := 3 }, 1, false),
        ({ trkBack with mode := .boomerang, cur := 2 }, 2, false),
        ({ trkBack with mode := .boomerang, cur := 2, isRev := true }, 2, true),
        ({ trkBack with mode := .boomerang, cur := 3, isRev := true }, 1, true),
        ({ trkBack with mode := .boomerangOnce, cur := 3, isRev := true }, 1, true),
        ({ trkA with mode := .boomerang, e := 0 }, 0, false)],
      (one p.1).trk[0]? = some p.1 ∧ p.1.state = .playing ∧ p.1.count ≠ 0#16 ∧ expired 0 100 p.1 ∧
      (p.1.mode = .boomerang ∨ p.1.mode = .boomerangOnce) ∧ p.1.s ≤ p.1.cur ∧ p.1.cur ≤ p.1.e ∧
      p.1.cur.toNat = fromFirst p.1 p.2.1 ∧ p.2.1 ≤ p.1.e.toNat - p.1.s.toNat ∧ p.1.isRev = p.2.2) := by
  decide

/-- Forward and backward starts. -/
theorem atStart_cases (md : Mode) : AtStart { trkA with mode := md } ∧ AtStart { trkBack with mode := md } ∧
    AtStart { trkA with mode := md, e := 0 } :=
  ⟨⟨rfl, show trkA.count ≠ 0#16 by decide, show trkA.s ≤ trkA.e by decide, rfl, rfl⟩,
    ⟨rfl, show trkBack.count ≠ 0#16 by decide, show trkBack.s ≤ trkBack.e by decide, rfl, rfl⟩,
    ⟨rfl, show trkA.count ≠ 0#16 by decide, show 0#16 ≤ 0#16 by decide, rfl, rfl⟩⟩

/-- Three frames: two due ticks move, the third completes. -/
theorem witness_OnceCompletesOnDueTickN :
    AtStart { trkA with mode := .once } ∧ frames trkA = 3 ∧
    allExpired 0 [100, 200] (one { trkA with mode := .once }) = true ∧
    allExpired 0 [100, 200, 300] (one { trkA with mode := .once }) = true :=
  ⟨(atStart_cases .once).1, by decide, by decide, by decide⟩

/-- Four frames backward, past one period. -/
theorem witness_LoopHasPeriodN :
    AtStart trkBack ∧ frames trkBack = 4 ∧ allExpired 0 [100, 200, 300, 400, 500] (one trkBack) = true :=
  ⟨(atStart_cases .loop).2.1, by decide, by decide⟩

/-- Two frames (period 2) and four frames backward (period 6). -/
theorem witness_BoomerangHasPeriodTwoNMinusTwo :
    AtStart { trkBack with mode := .boomerang } ∧ frames trkBack = 4 ∧
    allExpired 0 [100, 200, 300, 400, 500, 600, 700] (one { trkBack with mode := .boomerang }) = true ∧
    frames trkB = 2 ∧ allExpired 0 [150, 300, 450] (one { trkB with mode := .boomerang }) = true :=
  ⟨(atStart_cases .boomerang).2.1, by decide, by decide, by decide, by decide⟩

/-- Three frames, and one frame, at and around the completing tick. -/
theorem witness_BoomerangOnceCompletesOnTheWayBack :
    AtStart { trkA with mode := .boomerangOnce } ∧ frames trkA = 3 ∧
    allExpired 0 [100, 200, 300] (one { trkA with mode := .boomerangOnce }) = true ∧
    allExpired 0 [100, 200, 300, 400] (one { trkA with mode := .boomerangOnce }) = true ∧
    AtStart { trkA with mode := .boomerangOnce, e := 0 } ∧ frames { trkA with e := 0 } = 1 ∧
    allExpired 0 [100] (one { trkA with mode := .boomerangOnce, e := 0 }) = true ∧
    allExpired 0 [100, 200] (one { trkA with mode := .boomerangOnce, e := 0 }) = true :=
  ⟨(atStart_cases .boomerangOnce).1, by decide, by decide, by decide, (atStart_cases .boomerangOnce).2.2,
    by decide, by decide, by decide⟩

theorem witness_TrackStatesFollowTheTable :
    (one trkA).Inv ∧ (one trkA).trk[0]? = some trkA ∧
    exec (.trackTick 0) (one trkA) = .next ((one trkA).onTrack 0 (Track.advance 0 0)) :=
  ⟨inv_one, rfl, rfl⟩

/-- A completed layer under a tick, and a layer that a tick completes. -/
theorem witness_CompletedIsLeftOnlyByStartOrStop :
    sees shown (exec (.trackTick 0) (now 900 (one { trkA with mode := .once, state := .completed })))
      = some (some (.completed, 0, false, 0)) ∧
    sees shown (exec (.trackTick 0) (now 900 (one { trkA with mode := .once, cur := 2 })))
      = some (some (.completed, 2, false, 0)) := by decide

theorem witness_AbsentLayersAreIgnored : s0.layers ≤ 5 ∧ s0.layers ≤ 7 := by decide

/-- Two states that share layer 0 and NOW and differ elsewhere. -/
theorem witness_LayersAreIndependent :
    (one trkA).trk[0]? = ({ two trkA trkB with mem := [], led := 1 } : State).trk[0]? ∧
    (one trkA).inp.now = (two trkA trkB).inp.now ∧ (one trkA).trk[1]? ≠ (two trkA trkB).trk[1]? := by decide

/-- Layer 0 valid and due, the frame it then shows readable. -/
theorem witness_LayersUpdateWritesTheOrOfTheFrames (L : Nat) (t : State) (tr : Track)
    (hL : L < (now 100 (one trkA)).layers) (he : exec (.trackTick L) (now 100 (one trkA)) = .next t)
    (ht : t.trk[L]? = some tr) (hc : tr.count ≠ 0#16) :
    ∀ j, j < 3 → (now 100 (one trkA)).readable (tr.base + BitVec.ofNat 32 (4 * tr.cur.toNat + j)) = true := by
  cases he
  have hl : L < 5 := hL
  have h0 : ∀ j, j < 3 → (now 100 (one trkA)).readable (0x100#32 + BitVec.ofNat 32 (4 * 1 + j)) = true := by
    decide
  interval_cases L <;> cases ht
  · exact h0
  all_goals exact absurd rfl hc

/-- Present, a first word missing, a last word missing, absent. -/
theorem witness_GetFrameAnswersTheShownFrame :
    (one trkA).trk[0]? = some trkA ∧ trkA.count ≠ 0#16 ∧
    (∀ j, j < 3 → (one trkA).readable (trkA.base + BitVec.ofNat 32 (4 * trkA.cur.toNat + j)) = true) ∧
    ({ one trkA with mem := [] } : State).readable (trkA.base + BitVec.ofNat 32 (4 * 0 + 0)) = false ∧
    (∀ j, j < 2 → ({ one trkA with mem := [(0x100, 0), (0x101, 0)] } : State).readable
      (trkA.base + BitVec.ofNat 32 (4 * 0 + j)) = true) ∧
    ({ one trkA with mem := [(0x100, 0), (0x101, 0)] } : State).readable
      (trkA.base + BitVec.ofNat 32 (4 * 0 + 2)) = false ∧
    (one trkA).trk[1]? = some Track.reset ∧ Track.reset.count = 0#16 ∧ (one trkA).trk[7]? = none := by decide

theorem witness_ReadsGiveTheWordMemoryHolds :
    s0.mem.read (0x100#32).toNat = some 0x80000000 ∧ 0x100#32 ∉ s0.inp.racing ∧
    s0.mem.read (0xFF#32).toNat = none := by decide

/-- The corners of the grid, and one past each bound. -/
theorem witness_CanvasSetPixelWritesOneCell :
    (0 ≤ 11 ∧ 0 ≤ 7) ∧ (11 ≤ 11 ∧ 7 ≤ 7) ∧ ¬ (12 ≤ 11 ∧ 0 ≤ 7) ∧ ¬ (0 ≤ 11 ∧ 8 ≤ 7) := by decide

theorem witness_CanvasRoundTripGivesTheFrame : s0.rotation = .deg0 ∧ s0.canvasInvert = false := by decide

theorem witness_HalfTurnTwiceIsIdentity :
    ({ s0 with rotation := .deg180 } : State).rotation = .deg180 ∧ s0.canvasInvert = false := by decide

/-- Both address forms at both ends. -/
theorem witness_LedSetWritesTheCell :
    names (.xy 0 0) 0 ∧ names (.xy 11 7) 95 ∧ names (.linear 0) 0 ∧ names (.linear 95) 95 :=
  ⟨⟨by decide, by decide, rfl⟩, ⟨by decide, by decide, rfl⟩, ⟨by decide, rfl⟩, ⟨by decide, rfl⟩⟩

theorem witness_LedToggleComplementsTheCell : names (.linear 95) 95 := ⟨by decide, rfl⟩

theorem witness_LedGetAnswersTheCell : names (.xy 11 0) 11 := ⟨by decide, by decide, rfl⟩

theorem witness_LedBlinkAndNoblink : names (.xy 11 7) 95 ∧ 1#32 ≠ 0#32 :=
  ⟨⟨by decide, by decide, rfl⟩, by decide⟩

theorem witness_BlinkTogglesTwiceInTwoIntervals : names (.linear 95) 95 ∧ 0xFFFFFFFF#32 ≠ 0#32 :=
  ⟨⟨by decide, rfl⟩, by decide⟩

/-- One past each bound. -/
theorem witness_LedCommandsIgnoreCellsOutOfRange :
    (¬ ∃ i, names (.xy 12 0) i) ∧ (¬ ∃ i, names (.xy 0 8) i) ∧ ¬ ∃ i, names (.linear 96) i := by
  refine ⟨?_, ?_, ?_⟩
  · rintro ⟨_, h, _, _⟩
    omega
  · rintro ⟨_, _, h, _⟩
    omega
  · rintro ⟨_, h, _⟩
    omega

/-- Due exactly at the interval, not due one millisecond before, never due at interval 0. -/
theorem witness_UpdateBlinksTogglesTheDueCells :
    blinkDue (now 100 (s0.setInterval 95 100)) 95 ∧ ¬ blinkDue (now 99 (s0.setInterval 95 100)) 95 ∧
    (∀ j, ¬ blinkDue s0 j) ∧ s0.dirty = false := by
  refine ⟨?_, ?_, ?_, rfl⟩
  · unfold blinkDue
    decide +kernel
  · unfold blinkDue
    decide +kernel
  · rintro j ⟨h, _⟩
    exact h (by simp [s0, State.reset])

theorem witness_ReadRegLayerRegisters :
    (one trkA).trk[0]? = some trkA ∧ (0x00010002#32).toNat % 2 ^ 16 < trkA.count.toNat := by decide

theorem witness_ReadRegBlockRegisters :
    (0x0000015F#32).toNat % 2 ^ 8 = (95 : Cell).val ∧ (0#32).toNat % 2 ^ 8 = (0 : Cell).val ∧
    Config.layersInRange s0.layers ∧ s0.params.inRange ∧
    Config.layersInRange ({ s0 with trk := List.replicate 8 Track.reset } : State).layers ∧
    (⟨65535, noRot, noRot⟩ : Params).inRange := by decide

theorem witness_ReadRegOutOfRangeReadsZero :
    s0.layers ≤ 5 ∧ (one trkA).trk[0]? = some trkA ∧ trkA.count.toNat ≤ (3#32).toNat % 2 ^ 16 ∧
    96 ≤ (96#32).toNat % 2 ^ 8 ∧ 0x09 ∉ mappedRegisters ∧ 0x20 ∉ mappedRegisters := by decide

end Sys2Proof.Tests
end

section
/-! PROOFS. The statements of 00_scope.md: what no command writes, and the layout of a packed frame. -/

namespace Sys2Proof.Machine

/-! ## What the host side keeps under a command (00_scope.md R7, R15; 20_memory.md R61) -/

/-- The part of the state that only the host changes: animation memory, the parameters (LAYERS
included), the inputs sampled, the events offered and the count of commands accepted. -/
structure HostSide where
  mem : Memory
  params : Params
  layers : Nat
  inp : Inputs
  pending : List HostEvent
  accepted : Nat

/-- The host's part of a state. -/
def State.hostSide (s : State) : HostSide :=
  ⟨s.mem, s.params, s.layers, s.inp, s.pending, s.accepted⟩

section HostSide

variable (s : State)

@[simp] theorem State.onTrack_hostSide (ly : Nat) (f : Track → Track) :
    (s.onTrack ly f).hostSide = s.hostSide := by simp [State.hostSide]
@[simp] theorem State.advanceAll_hostSide : s.advanceAll.hostSide = s.hostSide := by
  simp [State.hostSide]
@[simp] theorem State.sinkWrite_hostSide (p : Packed) : (s.sinkWrite p).hostSide = s.hostSide := rfl
@[simp] theorem State.respond_hostSide (r : Response) : (s.respond r).hostSide = s.hostSide := rfl
@[simp] theorem State.setInterval_hostSide (i : Cell) (r : Word) :
    (s.setInterval i r).hostSide = s.hostSide := rfl
@[simp] theorem State.setLastToggle_hostSide (i : Cell) (w : Word) :
    (s.setLastToggle i w).hostSide = s.hostSide := rfl
@[simp] theorem State.toggleDue_hostSide : s.toggleDue.hostSide = s.hostSide := rfl
@[simp] theorem State.ledWrite_hostSide (i : Cell) (v : Bool) :
    (s.ledWrite i v).hostSide = s.hostSide := by rw [State.ledWrite_eq]; rfl
@[simp] theorem State.show_hostSide : s.show.hostSide = s.hostSide := by rw [State.show_eq]; rfl

end HostSide

/-- A command that completes leaves the host's part of the state: START and the frame commands read
memory and then change one field of the block or of its records, an LED command changes the grid
when its address names a cell, every other command is one such change. -/
theorem exec_hostSide {i : Instr} {s t : State} (he : exec i s = .next t) :
    t.hostSide = s.hostSide := by
  cases i
  case start ly md pr base count sf ef =>
    simp only [exec, execStart] at he
    split at he
    · cases he; rfl
    · split at he
      · cases he; simp
      · split at he
        · cases he
        · cases he; simp
  case layersUpdate =>
    simp only [exec, execLayersUpdate] at he
    split at he
    · cases he
    · cases he; simp
  case getFrame ly =>
    simp only [exec, execGetFrame] at he
    split at he
    · cases he; simp
    · split at he
      · split at he
        · cases he
        · cases he; simp
      · cases he; simp
  case canvasSetPixel x y v =>
    simp only [exec, execCanvasSetPixel] at he
    split at he <;> cases he <;> rfl
  case ledBlink cell rate =>
    simp only [exec, execLedBlink] at he
    split at he
    · cases he; rfl
    · split at he <;> cases he <;> simp
  case ledSet | ledToggle | ledNoblink | ledGet =>
    simp only [exec, execLedSet, execLedToggle, execLedNoblink, execLedGet] at he
    split at he <;> cases he <;> simp
  case stop | trackTick | setSpeed | pause | resume | restoreSpeed | ledUpdateBlinks | ledShow =>
    cases he
    simp
  case nop | setLayerInvert | canvasBegin | canvasEnd | canvasToFrame | canvasLoadFrame |
      setCanvasRotation | setCanvasInvert | readReg =>
    cases he
    rfl

/-! ## The layout of a packed frame (00_scope.md R11) -/

open Sys2Proof.Claims (frameBit)

/-- The statements' layout is the model's: cell `d` is bit `31 - d%32` of word `d/32`. -/
theorem frameBit_eq_word (p : Packed) (d : Cell) :
    frameBit p d.val = (p.word (d.val / 32)).getLsbD (31 - d.val % 32) := by
  unfold frameBit
  split
  · have hword : d.val / 32 = 0 := by omega
    have hbit : 31 - d.val % 32 = 31 - d.val := by omega
    rw [hword, hbit, Packed.word]
  · split
    · have hword : d.val / 32 = 1 := by omega
      have hbit : 31 - d.val % 32 = 63 - d.val := by omega
      rw [hword, hbit, Packed.word]
    · have hword : d.val / 32 = 2 := by omega
      have hbit : 31 - d.val % 32 = 95 - d.val := by omega
      rw [hword, hbit]
      rfl

theorem getLsbD_unpack_cell (p : Packed) (d : Cell) :
    (unpack p).getLsbD d.val = frameBit p d.val := by
  rw [getLsbD_unpack, frameBit_eq_word, decide_eq_true d.isLt, Bool.true_and]

theorem frameBit_pack (F : FrameVec) (d : Cell) : frameBit (pack F) d.val = F.getLsbD d.val := by
  have hword : d.val / 32 < 3 := by omega
  have hbit : 31 - d.val % 32 < 32 := by omega
  have hcell : 32 * (d.val / 32) + 31 - (31 - d.val % 32) = d.val := by omega
  rw [frameBit_eq_word, pack_word F _ hword, getLsbD_packWord, decide_eq_true hbit, Bool.true_and,
    hcell]

theorem unpack_pack (F : FrameVec) : unpack (pack F) = F :=
  frame_ext _ _ fun d => (getLsbD_unpack_cell _ d).trans (frameBit_pack F d)

/-- Word `k` survives: its bit `b` is cell `32*k + 31 - b`, whose bit in word `k` is `b` again. -/
theorem packWord_unpack (p : Packed) {k : Nat} (hk : k < 3) : packWord (unpack p) k = p.word k := by
  apply BitVec.eq_of_getLsbD_eq
  intro b hb
  have hcell : 32 * k + 31 - b < 96 := by omega
  have hword : (32 * k + 31 - b) / 32 = k := by omega
  have hbit : 31 - (32 * k + 31 - b) % 32 = b := by omega
  rw [getLsbD_packWord, getLsbD_unpack, hword, hbit, decide_eq_true hb, decide_eq_true hcell,
    Bool.true_and, Bool.true_and]

theorem pack_unpack (p : Packed) : pack (unpack p) = p := by
  simp only [pack, packWord_unpack p (show 0 < 3 by omega), packWord_unpack p (show 1 < 3 by omega),
    packWord_unpack p (show 2 < 3 by omega), Packed.word]

end Sys2Proof.Machine

namespace Sys2Proof.Claims

open Sys2Proof.Machine

/-- Settles O12: every command leaves the host's part of the state, and readability is a function
of memory. -/
theorem commandsWriteNoMemoryAndNoParameter : Obligations.CommandsWriteNoMemoryAndNoParameter := by
  intro i s t he
  have h := exec_hostSide he
  have hmem : t.mem = s.mem := congrArg HostSide.mem h
  exact ⟨hmem, State.readable_congr hmem, congrArg HostSide.params h, congrArg HostSide.layers h,
    congrArg HostSide.inp h, congrArg HostSide.pending h, congrArg HostSide.accepted h⟩

/-- Settles O41: both inverses follow from where each cell stands, the last two clauses. -/
theorem packAndUnpackAreInverse : Obligations.PackAndUnpackAreInverse :=
  ⟨unpack_pack, pack_unpack, frameBit_pack, getLsbD_unpack_cell⟩

end Sys2Proof.Claims
end

section
/-! PROOFS. The statements of 10_state.md: reset, the invariant, which command writes which field,
and what READ_REG answers. -/

namespace Sys2Proof.Machine

open Sys2Proof.Claims

/-! ## Reset (10_state.md R51) -/

/-- A reset block is at the reset values, whatever it was before. -/
theorem State.blockReset_atReset (s : State) : AtReset s.blockReset where
  layers tr htr := by
    rw [State.blockReset_trk] at htr
    rw [List.eq_of_mem_replicate htr]
    simp [Track.reset]
  layerInvert := rfl
  canvas _ := BitVec.getLsbD_zero
  rotation := rfl
  canvasInvert := rfl
  led _ := BitVec.getLsbD_zero
  blinkInterval d := Vector.getElem_replicate d.isLt
  lastToggle d := Vector.getElem_replicate d.isLt
  dirty := rfl

/-- Reset sets the relations of every layer up; what else the invariant asks, reset leaves. -/
theorem State.blockReset_inv {s : State} (hmem : s.mem.wf = true)
    (hlayers : Config.layersInRange s.layers) (hparams : s.params.inRange) : s.blockReset.Inv where
  tracks t ht := by
    rw [State.blockReset_trk] at ht
    rw [List.eq_of_mem_replicate ht]
    exact Track.Ok.reset _
  clean := rfl
  memory := hmem
  layersRange := by rwa [State.blockReset_layers]
  paramsRange := hparams

/-- The reset state is what the reset input leaves of it. -/
theorem State.blockReset_reset : State.reset.blockReset = State.reset := rfl

/-! ## What each command writes (10_state.md R34 to R41, R48) -/

/-- `t` differs from `s` at most in the fields the command writes: fields of the block by the rules
R34 to R41 and R48, and the records of sink writes and responses. -/
def WritesOnly (s t : State) : Instr → Prop
  | .start _ _ _ _ _ _ _ | .stop _ | .trackTick _ | .setSpeed _ _ | .pause _ | .resume _
  | .restoreSpeed _ => t = { s with trk := t.trk }
  | .layersUpdate => t = { s with trk := t.trk, sink := t.sink }
  | .setLayerInvert _ => t = { s with layerInvert := t.layerInvert }
  | .canvasLoadFrame _ _ _ | .canvasSetPixel _ _ _ => t = { s with canvas := t.canvas }
  | .setCanvasRotation _ => t = { s with rotation := t.rotation }
  | .setCanvasInvert _ => t = { s with canvasInvert := t.canvasInvert }
  | .ledSet _ _ | .ledToggle _ =>
    t = { s with led := t.led, blinkInterval := t.blinkInterval, dirty := t.dirty, sink := t.sink }
  | .ledBlink _ _ =>
    t = { s with led := t.led, blinkInterval := t.blinkInterval, lastToggle := t.lastToggle,
                 dirty := t.dirty, sink := t.sink }
  | .ledNoblink _ => t = { s with blinkInterval := t.blinkInterval }
  | .ledUpdateBlinks =>
    t = { s with led := t.led, lastToggle := t.lastToggle, dirty := t.dirty, sink := t.sink }
  | .ledShow => t = { s with dirty := t.dirty, sink := t.sink }
  | .canvasEnd => t = { s with sink := t.sink }
  | .getFrame _ | .canvasToFrame | .ledGet _ | .readReg _ _ _ =>
    t = { s with responses := t.responses }
  | .nop | .canvasBegin => t = s

/-- The write step and the show step together write the grid, `dirty` and the sink. -/
theorem State.ledWrite_show_eq (s : State) (i : Cell) (v : Bool) :
    (s.ledWrite i v).show =
      { s with led := (s.ledWrite i v).show.led, dirty := (s.ledWrite i v).show.dirty,
               sink := (s.ledWrite i v).show.sink } := by
  rw [State.show_eq, State.ledWrite_eq]

/-- A command that completes writes only its own fields. -/
theorem exec_writesOnly {i : Instr} {s t : State} (he : exec i s = .next t) :
    WritesOnly s t i := by
  cases i <;> simp only [WritesOnly]
  case start ly md pr base count sf ef =>
    simp only [exec, execStart] at he
    split at he
    · cases he; rfl
    · split at he
      · cases he; rfl
      · split at he
        · cases he
        · cases he; rfl
  case layersUpdate =>
    simp only [exec, execLayersUpdate] at he
    split at he
    · cases he
    · cases he; rfl
  case getFrame ly =>
    simp only [exec, execGetFrame] at he
    split at he
    · cases he; rfl
    · split at he
      · split at he
        · cases he
        · cases he; rfl
      · cases he; rfl
  case ledSet | ledToggle =>
    simp only [exec, execLedSet, execLedToggle] at he
    split at he
    · cases he; rfl
    · cases he
      rw [State.ledWrite_show_eq]; rfl
  case ledBlink cell rate =>
    simp only [exec, execLedBlink] at he
    split at he
    · cases he; rfl
    · split at he
      · cases he; rfl
      · cases he
        rw [State.ledWrite_show_eq]; rfl
  case ledUpdateBlinks =>
    cases he
    rw [State.show_eq]; rfl
  case ledShow =>
    cases he
    rw [State.show_eq]
  case canvasSetPixel | ledNoblink | ledGet =>
    simp only [exec, execCanvasSetPixel, execLedNoblink, execLedGet] at he
    split at he <;> cases he <;> rfl
  case nop | canvasBegin | stop | trackTick | setSpeed | pause | resume | restoreSpeed |
      setLayerInvert | canvasEnd | canvasToFrame | canvasLoadFrame | setCanvasRotation |
      setCanvasInvert | readReg =>
    cases he
    rfl

/-! ## What a command does to the invariant (10_state.md R33, R41) -/

/-- Only a track command and LAYERS_UPDATE change a layer. -/
theorem exec_trk {i : Instr} {s t : State} (he : exec i s = .next t) (htrack : ¬ isTrackCommand i)
    (hupdate : i ≠ .layersUpdate) : t.trk = s.trk := by
  have hw := exec_writesOnly he
  cases i <;> simp only [WritesOnly] at hw
  case start | stop | trackTick | setSpeed | pause | resume | restoreSpeed =>
    exact absurd trivial htrack
  case layersUpdate => exact absurd rfl hupdate
  all_goals rw [hw]

/-- `dirty` is clear after a command when it was clear before: a command that may set it ends in the
show step. -/
theorem exec_clean {i : Instr} {s t : State} (hs : s.dirty = false) (he : exec i s = .next t) :
    t.dirty = false := by
  have hw := exec_writesOnly he
  cases i <;> simp only [WritesOnly] at hw
  case ledSet | ledToggle =>
    simp only [exec, execLedSet, execLedToggle] at he
    split at he
    · cases he; exact hs
    · cases he; exact State.show_dirty _
  case ledBlink cell rate =>
    simp only [exec, execLedBlink] at he
    split at he
    · cases he; exact hs
    · split at he
      · cases he; exact hs
      · cases he; exact State.show_dirty _
  case ledUpdateBlinks | ledShow => cases he; exact State.show_dirty _
  all_goals rw [hw]; exact hs

/-- START keeps the invariant: it changes nothing, releases the layer, or sets its relations up. -/
theorem execStart_inv {s t : State} {ly md pr base count sf ef} (h : s.Inv)
    (he : execStart ly md pr base count sf ef s = .next t) : t.Inv := by
  unfold execStart at he
  split at he
  · cases he; exact h
  · split at he
    · cases he; exact h.onTrack fun _ _ => Track.Ok.release
    · next hfails =>
      split at he
      · cases he
      · next ds hds =>
        cases he
        simp only [startFails, Bool.or_eq_true, decide_eq_true_eq, not_or, Nat.not_lt] at hfails
        obtain ⟨⟨-, hcount⟩, hcapacity⟩ := hfails
        exact h.onTrack fun _ _ hok => hok.started hcount hcapacity (State.copyTimings_ok hds).1
          (startRange_bounds count sf ef hcount)

/-- LAYERS_UPDATE keeps the invariant: it advances every layer and writes the sink. -/
theorem execLayersUpdate_inv {s t : State} (h : s.Inv) (he : execLayersUpdate s = .next t) :
    t.Inv := by
  simp only [execLayersUpdate] at he
  split at he
  · cases he
  · cases he; exact h.advanceAll.congr rfl rfl rfl h.clean

/-- A command that completes keeps the invariant. -/
theorem exec_inv {i : Instr} {s t : State} (h : s.Inv) (he : exec i s = .next t) : t.Inv := by
  have hhost := exec_hostSide he
  have others : ¬ isTrackCommand i → i ≠ .layersUpdate → t.Inv := fun htrack hupdate =>
    h.congr (exec_trk he htrack hupdate) (congrArg HostSide.params hhost)
      (congrArg HostSide.mem hhost) (exec_clean h.clean he)
  cases i
  case start => exact execStart_inv h he
  case stop => cases he; exact h.onTrack fun _ _ => Track.Ok.release
  case trackTick => cases he; exact h.onTrack fun _ _ => Track.Ok.advance
  case setSpeed => cases he; exact h.onTrack fun _ _ => Track.Ok.setSpeed
  case pause => cases he; exact h.onTrack fun _ _ => Track.Ok.pause
  case resume => cases he; exact h.onTrack fun _ _ => Track.Ok.resume
  case restoreSpeed => cases he; exact h.onTrack fun _ _ => Track.Ok.restoreSpeed
  case layersUpdate => exact execLayersUpdate_inv h he
  all_goals exact others (fun hi => hi) (by simp)

/-- A transaction that completes keeps the invariant, decoded or not. -/
theorem runCommand_inv {c : Command} {s t : State} (h : s.Inv) (he : runCommand c s = .next t) :
    t.Inv := by
  unfold runCommand at he
  split at he
  · exact exec_inv h he
  · cases he; exact h

/-- What the host does to animation memory keeps the invariant when it keeps the canonical form. -/
theorem State.Inv.withMem {s : State} (h : s.Inv) {m : Memory} (hm : m.wf = true) :
    State.Inv { s with mem := m } :=
  ⟨h.tracks, h.clean, hm, h.layersRange, h.paramsRange⟩

/-- A step keeps the invariant. -/
theorem step_inv {s t : State} (h : s.Inv) (he : step s = .next t) : t.Inv := by
  have taken (rest : List HostEvent) : (s.taken rest).Inv := h.congr rfl rfl rfl h.clean
  unfold step at he
  split at he
  · cases he; exact h
  · next c inp rest _ =>
    have accepted : ((s.taken rest).accept inp).Inv := (taken rest).congr rfl rfl rfl h.clean
    exact runCommand_inv accepted he
  · next a w rest _ =>
    cases he; exact (taken rest).withMem (Memory.write_wf _ _ _ a.isLt h.memory)
  · next a rest _ => cases he; exact (taken rest).withMem (Memory.release_wf _ _ h.memory)
  · cases he; exact State.blockReset_inv h.memory h.layersRange h.paramsRange

/-! ## Register values (10_state.md R44 to R47) -/

/-- READ_REG answers the register's value. -/
theorem reads_of_toNat {s : State} {ly reg n : Nat} {index : Word}
    (h : (regValue s ly reg index).toNat = n) : reads s ly reg index n := by
  subst h
  simp only [reads, exec, execReadReg, State.respond, BitVec.ofNat_toNat, BitVec.setWidth_eq]

/-- READ_REG of a register of an existing layer answers that layer's value. -/
theorem reads_layerRegister {s : State} {ly reg n : Nat} {index : Word} {tr : Track}
    (f : Track → Word) (hreg : regValue s ly reg index = layerRegister s ly f)
    (htr : s.trk[ly]? = some tr) (h : (f tr).toNat = n) : reads s ly reg index n := by
  apply reads_of_toNat
  rw [hreg, layerRegister, htr]
  exact h

/-- Concatenation in numbers. -/
theorem toNat_append_eq_add {m n : Nat} (a : BitVec m) (b : BitVec n) :
    (a ++ b).toNat = a.toNat * 2 ^ n + b.toNat := by
  rw [BitVec.toNat_append, ← Nat.shiftLeft_add_eq_or_of_lt b.isLt, Nat.shiftLeft_eq]

/-- The statements' number of a flag is its bit. -/
theorem toNat_ofBool_eq_num (b : Bool) : (BitVec.ofBool b).toNat = num b := by cases b <;> rfl

theorem PlayState.code_toNat (p : PlayState) : p.code.toNat = stateNum p := by cases p <;> rfl

theorem Dir.code_eq (d : Dir) : d.code = (d == .bwd) := by cases d <;> rfl

theorem Mode.code_toNat (m : Mode) : m.code.toNat = modeNum m := by cases m <;> rfl

theorem Rotation.code_toNat (r : Rotation) : r.code.toNat = rotationNum r := by cases r <;> rfl

theorem Track.valid_eq (t : Track) : t.valid = (t.count != 0#16) := by
  simp [Track.valid, bne, Bool.beq_eq_decide_eq]

/-- TRK_STATUS in numbers: each field at its bit (10_state.md R45). -/
theorem trkStatus_toNat (t : Track) : (trkStatus t).toNat =
    stateNum t.state + 4 * modeNum t.mode + 16 * num (t.dir == .bwd) + 32 * num t.isRev +
      64 * num t.isCustom + 128 * num (t.count != 0#16) := by
  rw [trkStatus, BitVec.toNat_setWidth_of_le (by omega)]
  simp only [toNat_append_eq_add, toNat_ofBool_eq_num, PlayState.code_toNat, Mode.code_toNat,
    Dir.code_eq, Track.valid_eq]
  omega

/-- TRK_TIMING at a live entry (44_system.md R233). -/
theorem trkTiming_of_lt {L : Nat} {t : Track} {index : Word}
    (h : index.toNat % 2 ^ 16 < t.count.toNat) :
    trkTiming L t index = t.timingAt L (index.toNat % 2 ^ 16) := by
  simp only [trkTiming, BitVec.extractLsb'_toNat, Nat.shiftRight_zero, if_pos h]

/-- CV_CTRL in numbers (10_state.md R44). -/
theorem cvCtrl_toNat (s : State) :
    (cvCtrl s).toNat = rotationNum s.rotation + 4 * num s.canvasInvert := by
  rw [cvCtrl, BitVec.toNat_setWidth_of_le (by omega), toNat_append_eq_add, toNat_ofBool_eq_num,
    Rotation.code_toNat]
  omega

/-- A flag register in numbers. -/
theorem flagWord_toNat (b : Bool) : (flagWord b).toNat = num b := by
  rw [flagWord, BitVec.toNat_setWidth_of_le (by omega), toNat_ofBool_eq_num]

/-- A per-cell array register at an index of the grid (44_system.md R233). -/
theorem cellRegister_of_cell (v : Vector Word 96) {index : Word} {j : Cell}
    (h : index.toNat % 2 ^ 8 = j.val) : cellRegister v index = v[j.val] := by
  simp only [cellRegister, BitVec.extractLsb'_toNat, Nat.shiftRight_zero, h]
  rw [List.getD_eq_getElem _ _ (by simp), Vector.getElem_toList]

/-- PARAMS in numbers: the low 16 bits of MAX_FRAMES above the low 4 of LAYERS (10_state.md R47). -/
theorem paramsWord_toNat (s : State) :
    (paramsWord s).toNat = s.params.maxFrames % 2 ^ 16 * 2 ^ 16 + s.layers % 2 ^ 4 := by
  simp only [paramsWord, toNat_append_eq_add, BitVec.toNat_ofNat]
  omega

/-- In the ranges of 00_scope.md R7 PARAMS shows both parameters whole. -/
theorem paramsWord_toNat_of_inRange {s : State} (hlayers : Config.layersInRange s.layers)
    (hparams : s.params.inRange) :
    (paramsWord s).toNat = s.params.maxFrames * 2 ^ 16 + s.layers := by
  obtain ⟨-, hlayers⟩ := hlayers
  obtain ⟨-, hframes⟩ := hparams
  rw [paramsWord_toNat, Nat.mod_eq_of_lt (by omega), Nat.mod_eq_of_lt (by omega)]

end Sys2Proof.Machine

namespace Sys2Proof.Claims

open Sys2Proof.Machine

/-- Settles O11: waiting and taking an event change nothing of the invariant; a command keeps it
constructor by constructor, a host write or release keeps the canonical form of memory, and reset
sets it up. -/
theorem everyStepKeepsTheInvariant : Obligations.EveryStepKeepsTheInvariant :=
  fun _ _ => step_inv

/-- Settles O13: by `exec_writesOnly`, under each command a clause's field is either unchanged or
one the command writes, and then the clause names the command. -/
theorem fieldsChangeOnlyByTheirCommands : Obligations.FieldsChangeOnlyByTheirCommands := by
  intro i s t he
  have hw := exec_writesOnly he
  cases i
  all_goals
    simp only [WritesOnly] at hw
    rw [hw]
    simp [isTrackCommand, isLedWrite]

/-- Settles O57: each register is a field of the layer; TRK_STATUS places its fields by
`trkStatus_toNat`. -/
theorem readRegLayerRegisters : Obligations.ReadRegLayerRegisters := by
  intro s ly index tr htr
  have half (x : Half) : (x.setWidth 32 : Word).toNat = x.toNat :=
    BitVec.toNat_setWidth_of_le (by omega)
  exact ⟨reads_layerRegister _ rfl htr (trkStatus_toNat tr),
    reads_layerRegister _ rfl htr (half tr.cur), reads_layerRegister _ rfl htr (half tr.s),
    reads_layerRegister _ rfl htr (half tr.e), reads_layerRegister _ rfl htr (half tr.count),
    reads_layerRegister _ rfl htr rfl, reads_layerRegister _ rfl htr rfl,
    reads_layerRegister _ rfl htr rfl,
    fun hlive => reads_layerRegister _ rfl htr (congrArg _ (trkTiming_of_lt hlive))⟩

/-- Settles O58: each register by its value in numbers. -/
theorem readRegBlockRegisters : Obligations.ReadRegBlockRegisters := fun s _ _ =>
  ⟨reads_of_toNat (flagWord_toNat s.layerInvert), reads_of_toNat (cvCtrl_toNat s),
    reads_of_toNat (flagWord_toNat s.dirty),
    fun _ hj => ⟨reads_of_toNat (congrArg _ (cellRegister_of_cell s.blinkInterval hj)),
      reads_of_toNat (congrArg _ (cellRegister_of_cell s.lastToggle hj))⟩,
    reads_of_toNat rfl, reads_of_toNat rfl, reads_of_toNat rfl, reads_of_toNat rfl,
    reads_of_toNat rfl, reads_of_toNat rfl, reads_of_toNat (paramsWord_toNat s),
    fun hlayers hparams => reads_of_toNat (paramsWord_toNat_of_inRange hlayers hparams),
    reads_of_toNat rfl⟩

/-- Settles O8: the reset state is a reset block. -/
theorem resetLeavesTheSpecsValues : Obligations.ResetLeavesTheSpecsValues := by
  have h := State.reset.blockReset_atReset
  rwa [State.blockReset_reset] at h

/-- Settles O10: a reset block meets the invariant, and 5 layers, 16 frames and an empty memory are
in order. -/
theorem resetMeetsTheInvariant : Obligations.ResetMeetsTheInvariant := by
  have hlayers : Config.layersInRange State.reset.layers := by decide
  have hparams : State.reset.params.inRange := by decide
  have h := State.blockReset_inv (s := State.reset) Memory.wf_nil hlayers hparams
  rwa [State.blockReset_reset] at h

end Sys2Proof.Claims
end

section
/-! PROOFS. The statements of 20_memory.md: host writes and releases, reads, sink writes, and that
no command faults while the host keeps the lifetime contract. -/

namespace Sys2Proof.Machine

open Sys2Proof.Claims (isTrackCommand isLedWrite)

/-! ## Host events (20_memory.md R64, R70; 70_reset_and_hazards.md R272) -/

/-- With no event offered the block waits. -/
theorem step_of_noEvent {s : State} (h : s.pending = []) : step s = .next s := by
  simp only [step, h]

theorem step_of_writeWord {s : State} {a w : Word} {rest : List HostEvent}
    (h : s.pending = .writeWord a w :: rest) : step s = .next ((s.taken rest).hostWrite a w) := by
  simp only [step, h]

theorem step_of_releaseWord {s : State} {a : Word} {rest : List HostEvent}
    (h : s.pending = .releaseWord a :: rest) : step s = .next ((s.taken rest).hostRelease a) := by
  simp only [step, h]

/-! ## Reads (20_memory.md R61, R64, R73) -/

/-- A read of a listed address that races no host write gives the word listed. -/
theorem State.memRead_of_listed {s : State} {a w : Word} (n : Nat)
    (hread : s.mem.read a.toNat = some w) (hrace : a ∉ s.inp.racing) : s.memRead n a = .ok w := by
  simp only [State.memRead, hread, if_neg hrace]

/-- An address that is not listed is outside ANIM_READABLE. -/
theorem State.not_readable_of_unlisted {s : State} {a : Word} (h : s.mem.read a.toNat = none) :
    s.readable a = false := by
  rw [State.readable, h, Option.isSome_none]

/-! ## Ticks and memory (20_memory.md R63, R70) -/

theorem exec_trackTick (ly : Nat) (s : State) :
    exec (.trackTick ly) s = .next (s.onTrack ly (Track.advance ly s.inp.now)) := rfl

/-- A change of one layer and a change of animation memory are independent. -/
theorem State.onTrack_withMem (s : State) (m : Memory) (ly : Nat) (f : Track → Track) :
    State.onTrack { s with mem := m } ly f = { s.onTrack ly f with mem := m } := rfl

/-! ## Sink writes (20_memory.md R66) -/

/-- The commands that may write the sink. -/
def MayWriteSink (i : Instr) : Prop :=
  i = .layersUpdate ∨ i = .canvasEnd ∨ isLedWrite i ∨ i = .ledUpdateBlinks ∨ i = .ledShow

/-- The show step adds at most one entry to a record of sink writes. -/
theorem State.show_sink_cases {s u : State} (h : u.sink = s.sink) :
    u.show.sink = s.sink ∨ ∃ p, u.show.sink = s.sink ++ [p] := by
  rw [State.show_sink, h]
  split
  · exact .inr ⟨_, rfl⟩
  · exact .inl rfl

/-- What a command that completes does to the record of sink writes: nothing, and then it is neither
LAYERS_UPDATE nor CANVAS_END, or one more entry, and then R66 lists it. -/
theorem exec_sink_cases {i : Instr} {s t : State} (he : exec i s = .next t) :
    (t.sink = s.sink ∧ i ≠ .layersUpdate ∧ i ≠ .canvasEnd) ∨
      ((∃ p, t.sink = s.sink ++ [p]) ∧ MayWriteSink i) := by
  have hw := exec_writesOnly he
  cases i <;> simp only [WritesOnly] at hw
  case layersUpdate =>
    simp only [exec, execLayersUpdate] at he
    split at he
    · cases he
    · cases he; exact .inr ⟨⟨_, rfl⟩, .inl rfl⟩
  case canvasEnd => cases he; exact .inr ⟨⟨_, rfl⟩, .inr (.inl rfl)⟩
  case ledSet | ledToggle =>
    simp only [exec, execLedSet, execLedToggle] at he
    split at he
    · cases he; exact .inl ⟨rfl, nofun, nofun⟩
    · cases he
      exact (State.show_sink_cases (State.ledWrite_sink ..)).imp (⟨·, nofun, nofun⟩)
        (⟨·, .inr (.inr (.inl trivial))⟩)
  case ledBlink cell rate =>
    simp only [exec, execLedBlink] at he
    split at he
    · cases he; exact .inl ⟨rfl, nofun, nofun⟩
    · split at he
      · cases he; exact .inl ⟨rfl, nofun, nofun⟩
      · cases he
        exact (State.show_sink_cases (State.ledWrite_sink ..)).imp (⟨·, nofun, nofun⟩)
          (⟨·, .inr (.inr (.inl trivial))⟩)
  case ledUpdateBlinks =>
    cases he
    exact (State.show_sink_cases s.toggleDue_sink).imp (⟨·, nofun, nofun⟩)
      (⟨·, .inr (.inr (.inr (.inl rfl)))⟩)
  case ledShow =>
    cases he
    exact (State.show_sink_cases rfl).imp (⟨·, nofun, nofun⟩)
      (⟨·, .inr (.inr (.inr (.inr rfl)))⟩)
  all_goals
    have hsame : t.sink = s.sink := by rw [hw]
    exact .inl ⟨hsame, nofun, nofun⟩

/-! ## The lifetime contract (20_memory.md R64; 60_exceptions.md R250, R252) -/

/-- The change of a layer leaves the rows it borrows. -/
def KeepsRows (f : Track → Track) : Prop := ∀ t, (f t).base = t.base ∧ (f t).count = t.count

theorem KeepsRows.advance (L : Nat) (now : Word) : KeepsRows (Track.advance L now) := fun t => by
  rw [Track.advance_frame]
  exact ⟨rfl, rfl⟩

theorem KeepsRows.pause : KeepsRows Track.pause := fun t => by
  unfold Track.pause
  split <;> exact ⟨rfl, rfl⟩

theorem KeepsRows.resume (now : Word) : KeepsRows (Track.resume now) := fun t => by
  unfold Track.resume
  split <;> exact ⟨rfl, rfl⟩

theorem KeepsRows.setSpeed (now ms : Word) : KeepsRows (Track.setSpeed now ms) := fun t => by
  unfold Track.setSpeed
  split
  · split
    · exact KeepsRows.pause t
    · exact KeepsRows.resume now _
  · exact ⟨rfl, rfl⟩

theorem KeepsRows.restoreSpeed (now : Word) : KeepsRows (Track.restoreSpeed now) := fun _ =>
  KeepsRows.resume now _

/-- A change of one layer that leaves its rows keeps the contract. -/
theorem State.Contract.onTrack_keepsRows {s : State} {ly : Nat} {f : Track → Track}
    (hk : s.Contract) (hf : KeepsRows f) : (s.onTrack ly f).Contract :=
  hk.onTrack fun u hu hc => by
    obtain ⟨hbase, hcount⟩ := hf u
    rw [hcount] at hc
    rw [hbase, hcount]
    exact hk u (List.mem_of_getElem? hu) hc

/-- A released layer borrows no rows. -/
theorem State.Contract.onTrack_release {s : State} {ly : Nat} (hk : s.Contract) :
    (s.onTrack ly Track.release).Contract :=
  hk.onTrack fun _ _ hc => absurd rfl hc

/-- The rows of a START that passes its checks are readable. -/
theorem RowsNamedReadable.rows {s : State} {ly md pr base count sf ef}
    (h : RowsNamedReadable s (.start ly md pr base count sf ef)) (hly : ¬ s.layers ≤ ly)
    (hpasses : ¬ startFails s.params.maxFrames pr count = true) : s.RowsReadable base count :=
  h (Nat.lt_of_not_le hly) (Bool.eq_false_of_not_eq_true hpasses)

/-- Readable rows have readable durations, word 3 of each, so their copy succeeds. -/
theorem State.RowsReadable.copyTimings {s : State} {base : Word} {count : Half}
    (h : s.RowsReadable base count) : ∃ ds, s.copyTimings base 0 count.toNat = .ok ds :=
  State.copyTimings_of_readable fun j hj => by
    rw [Nat.zero_add]
    exact h j 3 hj (by decide)

/-- Under the contract a START that completes keeps it: the rows a layer then borrows are the rows
the command names. -/
theorem execStart_contract {s t : State} {ly md pr base count sf ef} (hk : s.Contract)
    (hrows : RowsNamedReadable s (.start ly md pr base count sf ef))
    (he : execStart ly md pr base count sf ef s = .next t) : t.Contract := by
  unfold execStart at he
  split at he
  · cases he; exact hk
  · next hly =>
    split at he
    · cases he; exact hk.onTrack_release
    · next hfails =>
      split at he
      · cases he
      · cases he; exact hk.onTrack fun _ _ _ => hrows.rows hly hfails

/-- A START whose named rows are readable completes. -/
theorem execStart_completes {s : State} {ly md pr base count sf ef}
    (hrows : RowsNamedReadable s (.start ly md pr base count sf ef)) :
    ∃ t, execStart ly md pr base count sf ef s = .next t := by
  unfold execStart
  split
  · exact ⟨_, rfl⟩
  · next hly =>
    split
    · exact ⟨_, rfl⟩
    · next hfails =>
      obtain ⟨ds, hds⟩ := (hrows.rows hly hfails).copyTimings
      rw [hds]
      exact ⟨_, rfl⟩

/-- Under the contract every frame LAYERS_UPDATE fetches after the advances is readable. -/
theorem execLayersUpdate_completes {s : State} (h : s.Inv) (hk : s.Contract) :
    ∃ t, execLayersUpdate s = .next t := by
  obtain ⟨C, hC⟩ := State.compositeFrom_of_readable (L := 0) fun t ht hv =>
    h.advanceAll.frame_readable hk.advanceAll ht hv
  simp only [execLayersUpdate, hC]
  exact ⟨_, rfl⟩

/-- Under the contract the frame GET_FRAME fetches is readable. -/
theorem execGetFrame_completes {s : State} (ly : Nat) (h : s.Inv) (hk : s.Contract) :
    ∃ t, execGetFrame ly s = .next t := by
  unfold execGetFrame
  split
  · exact ⟨_, rfl⟩
  · next tr htr =>
    split
    · next hv =>
      obtain ⟨p, hp⟩ := State.fetchFrame_of_readable (n := 0)
        (h.frame_readable hk (List.mem_of_getElem? htr) hv)
      rw [hp]
      exact ⟨_, rfl⟩
    · exact ⟨_, rfl⟩

/-- While the host keeps the contract every command completes: only START and the frame commands
read memory. -/
theorem exec_completes {i : Instr} {s : State} (h : s.Inv) (hk : s.Contract)
    (hrows : RowsNamedReadable s i) : ∃ t, exec i s = .next t := by
  cases i
  case start => exact execStart_completes hrows
  case layersUpdate => exact execLayersUpdate_completes h hk
  case getFrame ly => exact execGetFrame_completes ly h hk
  case canvasSetPixel | ledSet | ledToggle | ledNoblink | ledGet =>
    simp only [exec, execCanvasSetPixel, execLedSet, execLedToggle, execLedNoblink, execLedGet]
    split <;> exact ⟨_, rfl⟩
  case ledBlink =>
    simp only [exec, execLedBlink]
    split
    · exact ⟨_, rfl⟩
    · split <;> exact ⟨_, rfl⟩
  all_goals exact ⟨_, rfl⟩

/-- A command that completes keeps the contract. -/
theorem exec_contract {i : Instr} {s t : State} (hk : s.Contract) (hrows : RowsNamedReadable s i)
    (he : exec i s = .next t) : t.Contract := by
  have others : ¬ isTrackCommand i → i ≠ .layersUpdate → t.Contract := fun htrack hupdate =>
    hk.congr (exec_trk he htrack hupdate) (congrArg HostSide.mem (exec_hostSide he))
  cases i
  case start => exact execStart_contract hk hrows he
  case stop => cases he; exact hk.onTrack_release
  case trackTick => cases he; exact hk.onTrack_keepsRows (.advance _ _)
  case setSpeed => cases he; exact hk.onTrack_keepsRows (.setSpeed _ _)
  case pause => cases he; exact hk.onTrack_keepsRows .pause
  case resume => cases he; exact hk.onTrack_keepsRows (.resume _)
  case restoreSpeed => cases he; exact hk.onTrack_keepsRows (.restoreSpeed _)
  case layersUpdate =>
    simp only [exec, execLayersUpdate] at he
    split at he
    · cases he
    · cases he; exact hk.advanceAll.congr rfl rfl
  all_goals exact others (fun hi => hi) (by simp)

end Sys2Proof.Machine

namespace Sys2Proof.Claims

open Sys2Proof.Machine

/-- Settles O16: under the contract no read a command makes is outside ANIM_READABLE, so it
completes; what it leaves meets the invariant and borrows only rows borrowed before or named by
it. -/
theorem noCommandFaultsUnderTheContract : Obligations.NoCommandFaultsUnderTheContract := by
  intro i s h hk hrows
  obtain ⟨t, he⟩ := exec_completes h hk hrows
  exact ⟨t, he, exec_inv h he, exec_contract hk hrows he⟩

/-- Settles O7: each event by its step; what a read then gives, by the rules of memory. -/
theorem hostEventsBetweenCommands : Obligations.HostEventsBetweenCommands := fun _ =>
  ⟨step_of_noEvent,
    fun _ _ _ h => ⟨_, step_of_writeWord h, rfl, fun _ => Memory.read_write ..⟩,
    fun _ _ h => ⟨_, step_of_releaseWord h, rfl, fun _ => Memory.read_release ..⟩⟩

/-- Settles O15: each clause from the two cases of `exec_sink_cases`. -/
theorem sinkWritesAtMostOncePerCommand : Obligations.SinkWritesAtMostOncePerCommand := by
  intro i s t he
  obtain ⟨hsame, hupdate, hend⟩ | ⟨hone, hmay⟩ := exec_sink_cases he
  · exact ⟨.inl hsame, fun hi => (hi.elim hupdate hend).elim, fun hne => absurd hsame hne⟩
  · exact ⟨.inr hone, fun _ => hone, fun _ => hmay⟩

/-- Settles O34: a tick changes its layer by what the layer and NOW hold. -/
theorem ticksDoNotReadAnimationMemory : Obligations.TicksDoNotReadAnimationMemory := fun s m ly =>
  ⟨_, exec_trackTick ly s, (exec_trackTick ly _).trans (congrArg _ (s.onTrack_withMem m ly _))⟩

/-- Settles O40: a listed word is given, an unlisted address is outside ANIM_READABLE. -/
theorem readsGiveTheWordMemoryHolds : Obligations.ReadsGiveTheWordMemoryHolds := fun _ n _ =>
  ⟨fun _ => State.memRead_of_listed n,
    fun h => State.memRead_unreadable (State.not_readable_of_unlisted h)⟩

end Sys2Proof.Claims
end

section
/-! PROOFS. The statements of 30_encoding.md: the round trip, the bits a command uses, the opcode
table, undefined opcodes, responses, and absent layers. -/

namespace Sys2Proof.Machine

open Sys2Proof.Claims Sys2Proof.Laws

/-! ## The opcode table (30_encoding.md R85, R94) -/

theorem opcodeOf_mem_tableOpcodes (i : Instr) : opcodeOf i ∈ tableOpcodes := by
  cases i <;> simp [opcodeOf, tableOpcodes]

/-- What the decoder can do: give a command whose opcode is OP, or reject an OP that is not in the
table by its number. -/
theorem decode_cases (c : Command) :
    (∃ i, decode c = .ok i ∧ c.op.toNat = opcodeOf i) ∨
      (decode c = .error (.undefinedOpcode c.op.toNat) ∧ c.op.toNat ∉ tableOpcodes) := by
  unfold decode
  split
  case h_27 =>
    refine .inr ⟨rfl, ?_⟩
    simp only [tableOpcodes, List.mem_cons, List.not_mem_nil, or_false, not_or]
    and_intros <;> assumption
  all_goals left; exact ⟨_, rfl, ‹_›⟩

theorem opcodeOf_of_decode {c : Command} {i : Instr} (h : decode c = .ok i) :
    c.op.toNat = opcodeOf i := by
  obtain ⟨j, hj, hop⟩ | ⟨hr, -⟩ := decode_cases c
  · cases hj.symm.trans h
    exact hop
  · cases hr.symm.trans h

theorem decode_ok_of_mem {c : Command} (h : c.op.toNat ∈ tableOpcodes) : ∃ i, decode c = .ok i := by
  obtain ⟨i, hi, -⟩ | ⟨-, hop⟩ := decode_cases c
  · exact ⟨i, hi⟩
  · exact absurd h hop

theorem decode_of_not_mem {c : Command} (h : c.op.toNat ∉ tableOpcodes) :
    decode c = .error (.undefinedOpcode c.op.toNat) := by
  obtain ⟨i, -, hop⟩ | ⟨hr, -⟩ := decode_cases c
  · exact absurd (hop ▸ opcodeOf_mem_tableOpcodes i) h
  · exact hr

/-- The five ranges of R94 hold no opcode of the table. -/
theorem not_mem_tableOpcodes_of_undefined {op : Nat} (h : undefinedOpcode op) :
    op ∉ tableOpcodes := by
  intro hop
  simp only [tableOpcodes, List.mem_cons, List.not_mem_nil, or_false] at hop
  unfold undefinedOpcode at h
  omega

/-- The command of `i` with the operands that the fields of `c` give (30_encoding.md R82, R83). -/
def withOperandsOf (c : Command) : Instr → Instr
  | .start _ _ _ _ _ _ _ => .start c.ly (Mode.ofCode c.md) c.pr c.c1 (c.c2.extractLsb' 0 16)
      (c.c3.extractLsb' 16 16) (c.c3.extractLsb' 0 16)
  | .stop _ => .stop c.ly
  | .trackTick _ => .trackTick c.ly
  | .setSpeed _ _ => .setSpeed c.ly c.c1
  | .pause _ => .pause c.ly
  | .resume _ => .resume c.ly
  | .restoreSpeed _ => .restoreSpeed c.ly
  | .setLayerInvert _ => .setLayerInvert c.v
  | .getFrame _ => .getFrame c.ly
  | .canvasLoadFrame _ _ _ => .canvasLoadFrame c.c1 c.c2 c.c3
  | .canvasSetPixel _ _ _ => .canvasSetPixel c.x c.y c.v
  | .setCanvasRotation _ => .setCanvasRotation (Rotation.ofCode (c.c1.extractLsb' 0 2))
  | .setCanvasInvert _ => .setCanvasInvert c.v
  | .ledSet _ _ => .ledSet c.cell c.v
  | .ledToggle _ => .ledToggle c.cell
  | .ledBlink _ _ => .ledBlink c.cell c.c1
  | .ledNoblink _ => .ledNoblink c.cell
  | .ledGet _ => .ledGet c.cell
  | .readReg _ _ _ => .readReg c.ly (c.c1.extractLsb' 0 8).toNat c.c2
  | i => i

/-- The decoder by opcode: a transaction that carries the opcode of `i` is that command. -/
theorem decode_of_opcode {c : Command} {i : Instr} (h : c.op.toNat = opcodeOf i) :
    decode c = .ok (withOperandsOf c i) := by
  unfold decode
  rw [h]
  cases i <;> rfl

/-! ## The round trip (30_encoding.md R82, R83, R85) -/

/-- The encoder writes the opcode of the table in OP. -/
theorem encode_op (i : Instr) : (encode i).op.toNat = opcodeOf i := by
  cases i
  case ledSet | ledToggle | ledBlink | ledNoblink | ledGet =>
    exact congrArg BitVec.toNat (EncodedOpcode.c0Cell_op ..)
  all_goals exact congrArg BitVec.toNat (packC0_op ..)

theorem c0Layer_ly {ly : Nat} (h : layerFits ly = true) (op : BitVec 8) (c1 c2 c3 : Word) :
    (Command.mk (c0Layer op ly) c1 c2 c3).ly = ly := by
  rw [Command.ly, c0Layer, packC0_ly, ofNat3_toNat h]

theorem c0Value_v (op : BitVec 8) (v : Bool) (c1 c2 c3 : Word) :
    (Command.mk (c0Value op v) c1 c2 c3).v = v := packC0_v ..

/-- The fields of an encoded instruction give its operands back. -/
theorem withOperandsOf_encode {i : Instr} (h : i.wellFormed = true) :
    withOperandsOf (encode i) i = i := by
  cases i
  case start ly md pr base count sf ef =>
    simp only [withOperandsOf, encode, Command.ly, Command.md, Command.pr, packC0_ly, packC0_md,
      packC0_pr, ofNat3_toNat h, Mode.ofCode_code, extract_low, extract_high]
  case canvasSetPixel x y v =>
    obtain ⟨hx, hy⟩ := Bool.and_eq_true_iff.mp h
    simp only [withOperandsOf, encode, Command.x, Command.y, Command.v, packC0_x, packC0_y,
      packC0_v, ofNat8_toNat hx, ofNat8_toNat hy]
  case readReg ly reg index =>
    obtain ⟨hly, hreg⟩ := Bool.and_eq_true_iff.mp h
    simp only [withOperandsOf, encode, c0Layer_ly hly, extract_low, ofNat8_toNat hreg]
  case setCanvasRotation rot =>
    simp only [withOperandsOf, encode, extract_low, Rotation.ofCode_code]
  case stop | trackTick | setSpeed | pause | resume | restoreSpeed | getFrame =>
    simp only [withOperandsOf, encode, c0Layer_ly h]
  case setLayerInvert | setCanvasInvert => simp only [withOperandsOf, encode, c0Value_v]
  case ledSet | ledToggle | ledBlink | ledNoblink | ledGet =>
    simp only [withOperandsOf, encode, c0Cell_cell _ _ _ h, Command.v, c0Cell_v]
  all_goals rfl

theorem decode_encode {i : Instr} (h : i.wellFormed = true) : decode (encode i) = .ok i := by
  rw [decode_of_opcode (encode_op i), withOperandsOf_encode h]

/-- A word that encodes a well-formed instruction decodes to it. -/
theorem decode_of_encode_eq {i : Instr} {c : Command} (hwf : i.wellFormed = true)
    (h : encode i = c) : decode c = .ok i := by
  rw [← h, decode_encode hwf]

/-! ## Ignored bits are not read (30_encoding.md R93, R96) -/

section Agreement

variable {m : Word} {c d : Command}

/-- A field that a mask holds whole agrees where the masked words do. -/
theorem extract_congr {x y : Word} {lo len : Nat} (h : x &&& m = y &&& m)
    (hm : m.extractLsb' lo len = BitVec.allOnes len) :
    x.extractLsb' lo len = y.extractLsb' lo len := by
  have hfield := congrArg (BitVec.extractLsb' lo len) h
  simpa only [BitVec.extractLsb'_and, hm, BitVec.and_allOnes] using hfield

theorem word_congr {x y : Word} (h : x &&& BitVec.allOnes 32 = y &&& BitVec.allOnes 32) : x = y := by
  simpa only [BitVec.and_allOnes] using h

theorem ly_congr (h : c.c0 &&& m = d.c0 &&& m) (hm : m.extractLsb' 21 3 = BitVec.allOnes 3) :
    c.ly = d.ly := congrArg BitVec.toNat (extract_congr h hm)

theorem x_congr (h : c.c0 &&& m = d.c0 &&& m) (hm : m.extractLsb' 8 8 = BitVec.allOnes 8) :
    c.x = d.x := congrArg BitVec.toNat (extract_congr h hm)

theorem y_congr (h : c.c0 &&& m = d.c0 &&& m) (hm : m.extractLsb' 0 8 = BitVec.allOnes 8) :
    c.y = d.y := congrArg BitVec.toNat (extract_congr h hm)

theorem v_congr (h : c.c0 &&& m = d.c0 &&& m) (hm : m.getLsbD 16 = true) : c.v = d.v :=
  getLsbD_of_and_eq h 16 hm

/-- A cell is AM and X, and Y when AM = 0 (30_encoding.md R87): `lin` masks it when AM = 1, `xy`
when AM = 0. -/
theorem cell_congr {lin xy : Word}
    (h : c.c0 &&& (if c.am then lin else xy) = d.c0 &&& (if c.am then lin else xy))
    (hamLin : lin.getLsbD 17 = true) (hxLin : lin.extractLsb' 8 8 = BitVec.allOnes 8)
    (hamXY : xy.getLsbD 17 = true) (hxXY : xy.extractLsb' 8 8 = BitVec.allOnes 8)
    (hyXY : xy.extractLsb' 0 8 = BitVec.allOnes 8) : c.cell = d.cell := by
  unfold Command.cell
  cases ham : c.am <;> simp only [ham, Bool.false_eq_true, ↓reduceIte] at h ⊢
  case false =>
    have hamD : d.am = false := (getLsbD_of_and_eq h 17 hamXY).symm.trans ham
    simp only [hamD, Bool.false_eq_true, ↓reduceIte, x_congr h hxXY, y_congr h hyXY]
  case true =>
    have hamD : d.am = true := (getLsbD_of_and_eq h 17 hamLin).symm.trans ham
    simp only [hamD, ↓reduceIte, x_congr h hxLin]

end Agreement

/-- Every command uses OP. -/
theorem usedBits_op (op : Nat) (linear : Bool) :
    (usedBits op linear).c0.extractLsb' 24 8 = BitVec.allOnes 8 := by
  cases linear <;> unfold usedBits <;> split <;> rfl

/-- The operands are read from used bits only. -/
theorem withOperandsOf_congr {c d : Command} {i : Instr}
    (h : agreeOn (usedBits (opcodeOf i) c.am) c d) : withOperandsOf c i = withOperandsOf d i := by
  unfold agreeOn at h
  cases i <;> simp only [opcodeOf, usedBits] at h <;> obtain ⟨h0, h1, h2, h3⟩ := h
  case start =>
    have hmd : c.md = d.md := extract_congr h0 rfl
    have hpr : c.pr = d.pr := getLsbD_of_and_eq h0 18 rfl
    have hcount : c.c2.extractLsb' 0 16 = d.c2.extractLsb' 0 16 := extract_congr h2 rfl
    simp only [withOperandsOf, ly_congr h0 rfl, hmd, hpr, word_congr h1, hcount, word_congr h3]
  case stop | trackTick | pause | resume | restoreSpeed | getFrame =>
    simp only [withOperandsOf, ly_congr h0 rfl]
  case setSpeed => simp only [withOperandsOf, ly_congr h0 rfl, word_congr h1]
  case setLayerInvert | setCanvasInvert => simp only [withOperandsOf, v_congr h0 rfl]
  case canvasLoadFrame =>
    simp only [withOperandsOf, word_congr h1, word_congr h2, word_congr h3]
  case canvasSetPixel =>
    simp only [withOperandsOf, x_congr h0 rfl, y_congr h0 rfl, v_congr h0 rfl]
  case setCanvasRotation =>
    have hrot : c.c1.extractLsb' 0 2 = d.c1.extractLsb' 0 2 := extract_congr h1 rfl
    simp only [withOperandsOf, hrot]
  case readReg =>
    have hreg : c.c1.extractLsb' 0 8 = d.c1.extractLsb' 0 8 := extract_congr h1 rfl
    simp only [withOperandsOf, ly_congr h0 rfl, hreg, word_congr h2]
  case ledSet =>
    simp only [withOperandsOf, cell_congr h0 rfl rfl rfl rfl rfl, v_congr h0 (by split <;> rfl)]
  case ledBlink =>
    simp only [withOperandsOf, cell_congr h0 rfl rfl rfl rfl rfl, word_congr h1]
  case ledToggle | ledNoblink | ledGet =>
    simp only [withOperandsOf, cell_congr h0 rfl rfl rfl rfl rfl]
  all_goals rfl

/-- Transactions that agree on the bits their command uses decode alike: the mask holds OP, an
opcode of the table reads used bits only, and the reject names OP only. -/
theorem decode_congr {c d : Command} (h : agreeOn (usedBits c.op.toNat c.am) c d) :
    decode c = decode d := by
  have hop : c.op = d.op := extract_congr h.1 (usedBits_op _ _)
  obtain ⟨i, -, hi⟩ | ⟨-, hundefined⟩ := decode_cases c
  · rw [decode_of_opcode hi, decode_of_opcode (hop ▸ hi), withOperandsOf_congr (hi ▸ h)]
  · rw [decode_of_not_mem hundefined, decode_of_not_mem (hop ▸ hundefined), hop]

/-! ## Unused bits are encoded as 0 (30_encoding.md R93) -/

/-- Two packed C0 words meet field by field. -/
theorem packC0_and (op op' : BitVec 8) (ly ly' : Nat) (md md' : BitVec 2)
    (pr pr' am am' v v' : Bool) (x x' y y' : Nat) :
    packC0 op ly md pr am v x y &&& packC0 op' ly' md' pr' am' v' x' y' =
      packC0 (op &&& op') (ly &&& ly') (md &&& md') (pr && pr') (am && am') (v && v') (x &&& x')
        (y &&& y') := by
  unfold packC0
  refine BitVec.and_append.trans ?_
  simp only [BitVec.and_append, BitVec.ofNat_and, BitVec.ofBool_and_ofBool]

theorem packC0_zero : packC0 0#8 0 0#2 false false false 0 0 = 0#32 := rfl

theorem c0Plain_unused (op : BitVec 8) : c0Plain op &&& ~~~0xFF000000#32 = 0#32 := by
  have hmask : ~~~0xFF000000#32 = packC0 0#8 7 3#2 true true true 255 255 := rfl
  rw [c0Plain, hmask, packC0_and]
  simp [packC0_zero]

theorem c0Layer_unused (op : BitVec 8) (ly : Nat) :
    c0Layer op ly &&& ~~~0xFFE00000#32 = 0#32 := by
  have hmask : ~~~0xFFE00000#32 = packC0 0#8 0 3#2 true true true 255 255 := rfl
  rw [c0Layer, hmask, packC0_and]
  simp [packC0_zero]

theorem c0Value_unused (op : BitVec 8) (v : Bool) : c0Value op v &&& ~~~0xFF010000#32 = 0#32 := by
  have hmask : ~~~0xFF010000#32 = packC0 0#8 7 3#2 true true false 255 255 := rfl
  rw [c0Value, hmask, packC0_and]
  simp [packC0_zero]

theorem packC0_start_unused (op : BitVec 8) (ly : Nat) (md : BitVec 2) (pr : Bool) :
    packC0 op ly md pr false false 0 0 &&& ~~~0xFFFC0000#32 = 0#32 := by
  have hmask : ~~~0xFFFC0000#32 = packC0 0#8 0 0#2 false true true 255 255 := rfl
  rw [hmask, packC0_and]
  simp [packC0_zero]

theorem packC0_pixel_unused (op : BitVec 8) (v : Bool) (x y : Nat) :
    packC0 op 0 0#2 false false v x y &&& ~~~0xFF01FFFF#32 = 0#32 := by
  have hmask : ~~~0xFF01FFFF#32 = packC0 0#8 7 3#2 true true false 0 0 := rfl
  rw [hmask, packC0_and]
  simp [packC0_zero]

/-- A C0 that names a cell holds AM and X, and Y when AM = 0 (30_encoding.md R87). The masks `lin`
and `xy` leave V out when `vUnused`, and then it must be 0. -/
theorem c0Cell_unused {lin xy : Word} {v vUnused : Bool} (hv : (v && vUnused) = false)
    (hlin : ~~~lin = packC0 0#8 7 3#2 true false vUnused 0 255)
    (hxy : ~~~xy = packC0 0#8 7 3#2 true false vUnused 0 0)
    (op : BitVec 8) (cell : CellAddr) (c1 c2 c3 : Word) :
    c0Cell op v cell &&& ~~~(if (Command.mk (c0Cell op v cell) c1 c2 c3).am then lin else xy) =
      0#32 := by
  cases cell with
  | xy x y =>
    have ham : (Command.mk (c0Cell op v (.xy x y)) c1 c2 c3).am = false := packC0_am ..
    rw [ham, if_neg Bool.false_ne_true, hxy, c0Cell, packC0_and, hv]
    simp [packC0_zero]
  | linear i =>
    have ham : (Command.mk (c0Cell op v (.linear i)) c1 c2 c3).am = true := packC0_am ..
    rw [ham, if_pos rfl, hlin, c0Cell, packC0_and, hv]
    simp [packC0_zero]

theorem word_unused (w : Word) : w &&& ~~~(BitVec.allOnes 32) = 0#32 := by simp

/-- An operand in the low bits of its word. -/
theorem low_unused {m n : Nat} (b : BitVec n) :
    (0#m ++ b) &&& ~~~(0#m ++ BitVec.allOnes n) = 0#m ++ 0#n := by
  simp [BitVec.not_append, BitVec.and_append]

/-- Every bit that the command does not use is 0 in its encoding. -/
theorem encode_zeroOutside (i : Instr) :
    zeroOutside (usedBits (encode i).op.toNat (encode i).am) (encode i) := by
  rw [encode_op]
  cases i
  case start ly md pr base count sf ef =>
    exact ⟨packC0_start_unused .., word_unused _, low_unused count, word_unused _⟩
  case setSpeed => exact ⟨c0Layer_unused .., word_unused _, BitVec.zero_and, BitVec.zero_and⟩
  case stop | trackTick | pause | resume | restoreSpeed | getFrame =>
    exact ⟨c0Layer_unused .., BitVec.zero_and, BitVec.zero_and, BitVec.zero_and⟩
  case setLayerInvert | setCanvasInvert =>
    exact ⟨c0Value_unused .., BitVec.zero_and, BitVec.zero_and, BitVec.zero_and⟩
  case canvasLoadFrame => exact ⟨c0Plain_unused _, word_unused _, word_unused _, word_unused _⟩
  case canvasSetPixel =>
    exact ⟨packC0_pixel_unused .., BitVec.zero_and, BitVec.zero_and, BitVec.zero_and⟩
  case setCanvasRotation rot =>
    exact ⟨c0Plain_unused _, low_unused rot.code, BitVec.zero_and, BitVec.zero_and⟩
  case ledSet =>
    exact ⟨c0Cell_unused (Bool.and_false _) rfl rfl .., BitVec.zero_and,
      BitVec.zero_and, BitVec.zero_and⟩
  case ledBlink =>
    exact ⟨c0Cell_unused (Bool.false_and true) rfl rfl .., word_unused _,
      BitVec.zero_and, BitVec.zero_and⟩
  case ledToggle | ledNoblink | ledGet =>
    exact ⟨c0Cell_unused (Bool.false_and true) rfl rfl .., BitVec.zero_and,
      BitVec.zero_and, BitVec.zero_and⟩
  case readReg ly reg index =>
    exact ⟨c0Layer_unused .., low_unused (BitVec.ofNat 8 reg), word_unused _, BitVec.zero_and⟩
  all_goals exact ⟨c0Plain_unused _, BitVec.zero_and, BitVec.zero_and, BitVec.zero_and⟩

/-! ## Commands offered by the host (30_encoding.md R80, R81, R94) -/

theorem step_of_command {s : State} {c : Command} {inp : Inputs} {rest : List HostEvent}
    (h : s.pending = .command c inp :: rest) :
    step s = runCommand c ((s.taken rest).accept inp) := by
  simp only [step, h]

theorem runCommand_of_decode {c : Command} {i : Instr} (h : decode c = .ok i) (s : State) :
    runCommand c s = exec i s := by
  simp only [runCommand, h]

theorem runCommand_congr {c d : Command} (h : decode c = decode d) (s : State) :
    runCommand c s = runCommand d s := by
  unfold runCommand
  rw [h]

theorem runCommand_of_undefined {c : Command} (h : undefinedOpcode c.op.toNat) (s : State) :
    runCommand c s = .next s := by
  simp only [runCommand, decode_of_not_mem (not_mem_tableOpcodes_of_undefined h), rejectedCommand]

/-! ## Responses (30_encoding.md R84) -/

/-- A read command that completes answers once and does nothing else. -/
theorem exec_of_readCommand {i : Instr} {s t : State} (hread : isReadCommand i)
    (he : exec i s = .next t) : ∃ r, t = s.respond r := by
  cases i
  case getFrame ly =>
    simp only [exec, execGetFrame] at he
    split at he
    · cases he; exact ⟨_, rfl⟩
    · split at he
      · split at he
        · cases he
        · cases he; exact ⟨_, rfl⟩
      · cases he; exact ⟨_, rfl⟩
  case ledGet cell =>
    simp only [exec, execLedGet] at he
    split at he <;> cases he <;> exact ⟨_, rfl⟩
  case canvasToFrame | readReg => cases he; exact ⟨_, rfl⟩
  all_goals exact hread.elim

/-- Any other command writes fields that are not the record of responses. -/
theorem exec_responses_of_not_readCommand {i : Instr} {s t : State} (hread : ¬ isReadCommand i)
    (he : exec i s = .next t) : t.responses = s.responses := by
  have hw := exec_writesOnly he
  cases i
  case getFrame | canvasToFrame | ledGet | readReg => exact absurd trivial hread
  all_goals
    simp only [WritesOnly] at hw
    rw [hw]

/-! ## Layers that do not exist (30_encoding.md R86) -/

theorem State.trk_absent {s : State} {ly : Nat} (h : s.layers ≤ ly) : s.trk[ly]? = none :=
  List.getElem?_eq_none h

theorem layerRegister_absent {s : State} {ly : Nat} (h : s.layers ≤ ly) (f : Track → Word) :
    layerRegister s ly f = 0#32 := by
  rw [layerRegister, State.trk_absent h]

/-- Registers 0 to 8 are the per-layer registers (10_state.md R44). -/
theorem regValue_absent {s : State} {ly reg : Nat} (h : s.layers ≤ ly) (hreg : reg ≤ 8)
    (index : Word) : regValue s ly reg index = 0#32 := by
  interval_cases reg <;> exact layerRegister_absent h _

theorem execGetFrame_absent {s : State} {ly : Nat} (h : s.layers ≤ ly) :
    execGetFrame ly s = .next (s.respond ⟨0#32, 0#32, 0#32, 0#32⟩) := by
  rw [execGetFrame, State.trk_absent h]

/-- A command that changes one layer changes nothing when the layer does not exist. -/
theorem next_onTrack_absent {s : State} {ly : Nat} (h : s.layers ≤ ly) (f : Track → Track) :
    (.next (s.onTrack ly f) : Result) = .next s := by
  rw [s.onTrack_absent ly f h]

end Sys2Proof.Machine

namespace Sys2Proof.Claims

open Sys2Proof.Machine

/-- Settles O2: OP selects the command, and each field gives its operand back. -/
theorem decodeOfEncodeIsIdentity : Obligations.DecodeOfEncodeIsIdentity := fun _ => decode_encode

/-- Settles O3: transactions that agree on the used bits decode alike, and the encoder's words meet
the complement of the mask in 0. -/
theorem unusedBitsChangeNothing : Obligations.UnusedBitsChangeNothing :=
  ⟨fun _ _ s h => runCommand_congr (decode_congr h) s, encode_zeroOutside⟩

/-- Settles O4: the decoder rejects an opcode outside the table, and a rejected command leaves the
state. -/
theorem undefinedOpcodesAreSilentNoOps : Obligations.UndefinedOpcodesAreSilentNoOps :=
  fun _ _ _ _ hop hpending =>
    ⟨(step_of_command hpending).trans (runCommand_of_undefined hop _), runCommand_of_undefined hop⟩

/-- Settles O5: by what the decoder can do, and that every command's opcode is in the table. -/
theorem opAloneSelectsTheCommand : Obligations.OpAloneSelectsTheCommand := fun _ =>
  ⟨fun _ => opcodeOf_of_decode,
    fun ⟨i, hi⟩ => opcodeOf_of_decode hi ▸ opcodeOf_mem_tableOpcodes i, decode_ok_of_mem⟩

/-- Settles O14: a read command answers by one response; the fields every other command writes are
not the responses. -/
theorem onlyReadCommandsRespond : Obligations.OnlyReadCommandsRespond := by
  intro i s t he
  refine ⟨fun hread => ?_, fun hread => exec_responses_of_not_readCommand hread he⟩
  obtain ⟨r, rfl⟩ := exec_of_readCommand hread he
  exact ⟨r, rfl⟩

/-- Settles O33: a change of an absent layer changes nothing, and its frame and registers read as
absent. -/
theorem absentLayersAreIgnored : Obligations.AbsentLayersAreIgnored := fun _ _ h =>
  ⟨fun _ _ _ _ _ _ => if_pos h, next_onTrack_absent h _, next_onTrack_absent h _,
    fun _ => next_onTrack_absent h _, next_onTrack_absent h _, next_onTrack_absent h _,
    next_onTrack_absent h _, execGetFrame_absent h,
    fun _ index hreg => reads_of_toNat (congrArg BitVec.toNat (regValue_absent h hreg index))⟩

/-- Settles O1: each word is the encoding of its command, so it decodes to it. -/
theorem specWordsDecodeAndEncode : Obligations.SpecWordsDecodeAndEncode :=
  ⟨⟨decode_of_encode_eq rfl rfl, rfl⟩, ⟨decode_of_encode_eq rfl rfl, rfl⟩,
    ⟨decode_of_encode_eq rfl rfl, rfl⟩, decode_of_encode_eq rfl rfl, decode_of_encode_eq rfl rfl,
    decode_of_encode_eq rfl rfl⟩

/-- Settles O6: the step takes the command and decodes it. -/
theorem stepRunsTheDecodedInstruction : Obligations.StepRunsTheDecodedInstruction :=
  fun _ _ _ _ _ hpending hdecode =>
    (step_of_command hpending).trans (runCommand_of_decode hdecode _)

end Sys2Proof.Claims
end

section
/-! PROOFS. The statements of 40_track.md: START and STOP, the ticks of each playback mode and their
periods, speed, PAUSE and RESUME, and the transition table. -/

namespace Sys2Proof.Machine

open Sys2Proof.Claims

/-! ## A command that changes one layer (40_track.md R110, R116) -/

theorem State.onTrack_onlyLayer (s : State) (ly : Nat) (f : Track → Track) :
    OnlyLayer ly s (s.onTrack ly f) :=
  ⟨rfl, fun L hL => by rw [State.onTrack_getElem?, if_neg hL]⟩

/-- A command whose whole effect is a change of one layer completes with that change. -/
theorem exists_next_onTrack (s : State) (ly : Nat) (f : Track → Track) :
    ∃ t, (.next (s.onTrack ly f) : Result) = .next t ∧ OnlyLayer ly s t ∧
      t.trk[ly]? = (s.trk[ly]?).map f :=
  ⟨_, rfl, s.onTrack_onlyLayer ly f, s.onTrack_get ly f⟩

theorem State.onTrack_get_some {s : State} {ly : Nat} {tr : Track} (htr : s.trk[ly]? = some tr)
    (f : Track → Track) : (s.onTrack ly f).trk[ly]? = some (f tr) := by
  rw [State.onTrack_get, htr, Option.map_some]

/-! ## START (40_track.md R110 to R115) -/

theorem startFails_iff {maxFrames : Nat} {pr : Bool} {count : Half} :
    startFails maxFrames pr count = true ↔
      pr = false ∨ count = 0#16 ∨ maxFrames < count.toNat := by
  simp [startFails, or_assoc]

/-- A START on an existing layer that fails releases it and reads nothing. -/
theorem execStart_fails {s : State} {ly md pr base count sf ef} {tr : Track}
    (htr : s.trk[ly]? = some tr) (hfails : startFails s.params.maxFrames pr count = true) :
    execStart ly md pr base count sf ef s = .next (s.onTrack ly Track.release) := by
  rw [execStart, if_neg (State.not_layers_le htr), if_pos hfails]

/-- A START on an existing layer that passes its checks and reads its durations starts it. -/
theorem execStart_passes {s : State} {ly md pr base count sf ef} {tr : Track} {ds : List Word}
    (htr : s.trk[ly]? = some tr) (hpasses : ¬ startFails s.params.maxFrames pr count = true)
    (hds : s.copyTimings base 0 count.toNat = .ok ds) :
    execStart ly md pr base count sf ef s =
      .next (s.onTrack ly (Track.started s.inp.now md base count (startRange count sf ef) ds)) := by
  simp only [execStart, if_neg (State.not_layers_le htr), if_neg hpasses, hds]

section Started

variable {now : Word} {md : Mode} {base : Word} {count : Half} {r : SubRange} {ds : List Word}
  {t : Track}

/-- A live entry of the timing RAM is the duration read. -/
theorem Track.started_timingAt_of_lt (L : Nat) {k : Nat} (hk : k < ds.length) :
    (t.started now md base count r ds).timingAt L k = ds[k] := by
  simp only [Track.timingAt, Track.started]
  rw [List.getD_append _ _ _ _ hk, List.getD_eq_getElem _ _ hk]

/-- The copy leaves the entries above `count`. -/
theorem Track.started_timingAt_of_le (L : Nat) {k : Nat} (hk : ds.length ≤ k) :
    (t.started now md base count r ds).timingAt L k = t.timingAt L k := by
  simp only [Track.timingAt, Track.started]
  rw [List.getD_append_right _ _ _ _ hk, List.getD_eq_getElem?_getD, List.getElem?_drop,
    Nat.add_sub_cancel' hk, List.getD_eq_getElem?_getD]

end Started

/-! ## One tick (40_track.md R120, R121) -/

/-- A PLAYING layer with an animation whose interval has passed is due. -/
theorem Track.due_of_expired {t : Track} {L : Nat} {now : Word} (hp : t.state = .playing)
    (hc : t.count ≠ 0#16) (hx : expired L now t) : t.due L now = true :=
  (Track.due_iff L now t).mpr ⟨hp, hc, hx⟩

/-- A layer that is not PLAYING, has no animation or has time left keeps everything. -/
theorem Track.advance_of_not_due {t : Track} {L : Nat} {now : Word}
    (h : t.state ≠ .playing ∨ t.count = 0#16 ∨ ¬ expired L now t) : t.advance L now = t := by
  apply Track.advance_not_due
  rw [Bool.eq_false_iff, ne_eq, Track.due_iff]
  rintro ⟨hp, hc, hx⟩
  exact h.elim (· hp) (·.elim hc (· hx))

/-- A COMPLETED layer stays as it is (40_track.md R127). -/
theorem Track.advance_completed {t : Track} {L : Nat} {now : Word} (h : t.state = .completed) :
    t.advance L now = t :=
  Track.advance_of_not_due (.inl (by rw [h]; nofun))

/-! ## A due tick in ONCE and LOOP mode (40_track.md R123, R124) -/

/-- The frame after the one shown, in the layer's direction. -/
def Track.nextFrame (t : Track) : Half := if t.dir = .fwd then t.cur + 1#16 else t.cur - 1#16

/-- The frame before the one shown, in the layer's direction. -/
def Track.prevFrame (t : Track) : Half := if t.dir = .fwd then t.cur - 1#16 else t.cur + 1#16

/-- The layer shows the bound its direction ends at, or has passed it. -/
abbrev Track.AtEnd (t : Track) : Prop :=
  (t.dir = .fwd ∧ t.e.toNat ≤ t.cur.toNat) ∨ (t.dir = .bwd ∧ t.cur.toNat ≤ t.s.toNat)

theorem Track.atEnd_fwd {t : Track} (h : t.dir = .fwd) : t.AtEnd ↔ t.e.toNat ≤ t.cur.toNat := by
  simp [Track.AtEnd, h]

theorem Track.atEnd_bwd {t : Track} (h : t.dir = .bwd) : t.AtEnd ↔ t.cur.toNat ≤ t.s.toNat := by
  simp [Track.AtEnd, h]

theorem Track.fwd_or_bwd (t : Track) : t.dir = .fwd ∨ t.dir = .bwd := by
  cases t.dir
  · exact .inl rfl
  · exact .inr rfl

/-- The forward step and the backward step in one: the direction names the bounds. -/
theorem Track.advance_onceOrLoop {t : Track} {L : Nat} {now : Word} (hd : t.due L now = true)
    (hm : t.mode = .once ∨ t.mode = .loop) : t.advance L now =
      if t.AtEnd then (if t.mode = .once then t.complete else t.moveTo now t.init)
      else t.moveTo now t.nextFrame := by
  rcases t.fwd_or_bwd with hdir | hdir
  · simp only [Track.advance_forward hd hm hdir, Track.stepForward, BitVec.le_def,
      Track.atEnd_fwd hdir, Track.init, Track.nextFrame, hdir, if_true]
  · simp only [Track.advance_backward hd hm hdir, Track.stepBackward, BitVec.le_def,
      Track.atEnd_bwd hdir, Track.init, Track.nextFrame, hdir, reduceCtorEq, if_false]

/-! ## Distances from the first frame (40_track.md R125, R129) -/

/-- How far the far bound is from the first: N - 1 (40_track.md R129). -/
def Track.span (t : Track) : Nat := t.e.toNat - t.s.toNat

theorem Track.span_eq (t : Track) : t.span = t.e.toNat - t.s.toNat := rfl

theorem frames_eq (t : Track) : frames t = t.span + 1 := rfl

theorem eq_span_of_succ_eq {t : Track} {k : Nat} (h : k + 1 = frames t) : k = t.span :=
  Nat.succ_injective h

/-- The range is in order and the layer shows the frame `k` from its first. -/
structure Track.Shows (t : Track) (k : Nat) : Prop where
  range : t.s.toNat ≤ t.e.toNat
  cur : t.cur.toNat = fromFirst t k
  inRange : k ≤ t.span

theorem fromFirst_fwd {t : Track} (h : t.dir = .fwd) (k : Nat) : fromFirst t k = t.s.toNat + k := by
  simp [fromFirst, h]

theorem fromFirst_bwd {t : Track} (h : t.dir = .bwd) (k : Nat) : fromFirst t k = t.e.toNat - k := by
  simp [fromFirst, h]

theorem Track.init_eq (t : Track) : t.init = if t.dir = .bwd then t.e else t.s := by
  cases h : t.dir <;> simp [Track.init, h]

theorem Track.far_eq (t : Track) : t.far = if t.dir = .bwd then t.s else t.e := by
  cases h : t.dir <;> simp [Track.far, h]

theorem Track.init_toNat (t : Track) : t.init.toNat = fromFirst t 0 := by
  cases h : t.dir <;> simp [Track.init, h, fromFirst]

theorem Track.far_toNat {t : Track} (hrange : t.s.toNat ≤ t.e.toNat) :
    t.far.toNat = fromFirst t t.span := by
  cases h : t.dir <;>
    simp only [Track.far, h, fromFirst_fwd, fromFirst_bwd, Track.span_eq] <;> omega

section Shows

variable {t : Track} {k : Nat} (h : t.Shows k)
include h

theorem Track.Shows.nextFrame_toNat (hk : k < t.span) :
    t.nextFrame.toNat = fromFirst t (k + 1) := by
  obtain ⟨hrange, hcur, -⟩ := h
  have hspan := t.span_eq
  have hmax := t.e.isLt
  unfold Track.nextFrame
  cases hdir : t.dir
  · rw [fromFirst_fwd hdir] at hcur ⊢
    rw [if_pos rfl, half_add_one (by omega)]
    omega
  · rw [fromFirst_bwd hdir] at hcur ⊢
    rw [if_neg nofun, half_sub_one (by omega)]
    omega

theorem Track.Shows.prevFrame_toNat (hk : 0 < k) : t.prevFrame.toNat = fromFirst t (k - 1) := by
  obtain ⟨hrange, hcur, hin⟩ := h
  have hspan := t.span_eq
  have hmax := t.e.isLt
  unfold Track.prevFrame
  cases hdir : t.dir
  · rw [fromFirst_fwd hdir] at hcur ⊢
    rw [if_pos rfl, half_sub_one (by omega)]
    omega
  · rw [fromFirst_bwd hdir] at hcur ⊢
    rw [if_neg nofun, half_add_one (by omega)]
    omega

theorem Track.Shows.atEnd_iff : t.AtEnd ↔ t.span ≤ k := by
  obtain ⟨hrange, hcur, hin⟩ := h
  have hspan := t.span_eq
  rcases t.fwd_or_bwd with hdir | hdir
  · rw [fromFirst_fwd hdir] at hcur
    rw [Track.atEnd_fwd hdir]
    omega
  · rw [fromFirst_bwd hdir] at hcur
    rw [Track.atEnd_bwd hdir]
    omega

/-! ## A due tick in the boomerang modes (40_track.md R125, R126) -/

/-- On the way out: the step that reaches the far bound turns. -/
theorem Track.Shows.stepBoomerang_out (now : Word) (hr : t.isRev = false) : t.stepBoomerang now =
    if t.span ≤ k + 1 then { t.moveTo now t.far with isRev := true }
    else t.moveTo now t.nextFrame := by
  obtain ⟨hrange, hcur, hin⟩ := h
  have hspan := t.span_eq
  cases hdir : t.dir
  · rw [fromFirst_fwd hdir] at hcur
    have hfar : t.cur.toNat + 1 ≥ t.e.toNat ↔ t.span ≤ k + 1 := by omega
    simp only [Track.stepBoomerang_out_fwd hr hdir, hfar, Track.far, Track.nextFrame, hdir, if_true]
  · rw [fromFirst_bwd hdir] at hcur
    have hfar : t.cur.toNat ≤ t.s.toNat + 1 ↔ t.span ≤ k + 1 := by omega
    simp only [Track.stepBoomerang_out_bwd hr hdir, hfar, Track.far, Track.nextFrame, hdir,
      reduceCtorEq, if_false]

/-- On the way back: the step that reaches the first bound restarts or completes. -/
theorem Track.Shows.stepBoomerang_back (now : Word) (hr : t.isRev = true) : t.stepBoomerang now =
    if k ≤ 1 then
      (if t.mode = .boomerangOnce then t.complete else { t.moveTo now t.init with isRev := false })
    else t.moveTo now t.prevFrame := by
  obtain ⟨hrange, hcur, hin⟩ := h
  have hspan := t.span_eq
  cases hdir : t.dir
  · rw [fromFirst_fwd hdir] at hcur
    have hfirst : t.cur.toNat ≤ t.s.toNat + 1 ↔ k ≤ 1 := by omega
    simp only [Track.stepBoomerang_back_fwd hr hdir, hfirst, Track.init, Track.prevFrame, hdir,
      if_true]
  · rw [fromFirst_bwd hdir] at hcur
    have hfirst : t.cur.toNat + 1 ≥ t.e.toNat ↔ k ≤ 1 := by omega
    simp only [Track.stepBoomerang_back_bwd hr hdir, hfirst, Track.init, Track.prevFrame, hdir,
      reduceCtorEq, if_false]

end Shows

/-! ## Runs of ticks (40_track.md R129) -/

/-- What every due tick carries from `j` ticks to `j + 1` holds after a run of them. -/
theorem tickAll_induction {ly : Nat} {P : Nat → Track → Prop}
    (hstep : ∀ j u now, P j u → expired ly now u → P (j + 1) (u.advance ly now)) :
    ∀ (nows : List Word) {s : State} {j : Nat} {u : Track}, s.trk[ly]? = some u → P j u →
      allExpired ly nows s = true →
      ∃ t v, tickAll ly nows s = .next t ∧ t.trk[ly]? = some v ∧ P (j + nows.length) v := by
  intro nows
  induction nows with
  | nil => exact fun hu hP _ => ⟨_, _, rfl, hu, hP⟩
  | cons now nows ih =>
    intro s j u hu hP hexpired
    simp only [allExpired, hu, exec_trackTick, Bool.and_eq_true, decide_eq_true_eq] at hexpired
    obtain ⟨hx, hlater⟩ := hexpired
    have hnext := State.onTrack_get_some (s := at_ now s) hu (Track.advance ly now)
    simp only [tickAll, exec_trackTick, List.length_cons, ← Nat.add_assoc, Nat.add_right_comm j _ 1]
    exact ih hnext (hstep j u now hP hx) hlater

/-- Layer `u` plays the animation that `tr` was started with, at the frame `k` from its first, on
the way back when `rev`. -/
def PlaysAt (tr : Track) (k : Nat) (rev : Bool) (u : Track) : Prop :=
  k ≤ tr.span ∧ ∃ (c : Half) (w : Word), c.toNat = fromFirst tr k ∧
    u = { tr with state := .playing, isRev := rev, cur := c, lastUpdate := w }

theorem PlaysAt.start {tr : Track} (hat : AtStart tr) : PlaysAt tr 0 false tr := by
  refine ⟨Nat.zero_le _, tr.cur, tr.lastUpdate, ?_, ?_⟩
  · rw [hat.first, ← Track.init_eq, Track.init_toNat]
  · rw [← hat.playing, ← hat.outward]

section PlaysAt

variable {tr u : Track} {k : Nat} {rev : Bool} (h : PlaysAt tr k rev u)
include h

theorem PlaysAt.playing : u.state = .playing := by
  obtain ⟨-, c, w, -, rfl⟩ := h
  rfl

theorem PlaysAt.cur : u.cur.toNat = fromFirst tr k := by
  obtain ⟨-, c, w, hc, rfl⟩ := h
  exact hc

theorem PlaysAt.isRev_eq : u.isRev = rev := by
  obtain ⟨-, c, w, -, rfl⟩ := h
  rfl

theorem PlaysAt.mode_eq : u.mode = tr.mode := by
  obtain ⟨-, c, w, -, rfl⟩ := h
  rfl

theorem PlaysAt.span_eq : u.span = tr.span := by
  obtain ⟨-, c, w, -, rfl⟩ := h
  rfl

theorem PlaysAt.due {L : Nat} {now : Word} (hat : AtStart tr) (hx : expired L now u) :
    u.due L now = true := by
  obtain ⟨-, c, w, -, rfl⟩ := h
  exact Track.due_of_expired rfl hat.valid hx

theorem PlaysAt.shows (hat : AtStart tr) : u.Shows k := by
  obtain ⟨hk, c, w, hc, rfl⟩ := h
  exact ⟨BitVec.le_def.mp hat.range, hc, hk⟩

theorem PlaysAt.withIsRev (b : Bool) : PlaysAt tr k b { u with isRev := b } := by
  obtain ⟨hk, c, w, hc, rfl⟩ := h
  exact ⟨hk, c, w, hc, rfl⟩

theorem PlaysAt.moveTo (now : Word) {n : Half} {j : Nat} (hn : n.toNat = fromFirst u j)
    (hj : j ≤ tr.span) : PlaysAt tr j rev (u.moveTo now n) := by
  obtain ⟨-, c, w, -, rfl⟩ := h
  exact ⟨hj, n, now, hn, rfl⟩

theorem PlaysAt.moveTo_init (now : Word) : PlaysAt tr 0 rev (u.moveTo now u.init) :=
  h.moveTo now u.init_toNat (Nat.zero_le _)

theorem PlaysAt.moveTo_far (hat : AtStart tr) (now : Word) :
    PlaysAt tr tr.span rev (u.moveTo now u.far) :=
  h.moveTo now (by rw [← h.span_eq]; exact Track.far_toNat (h.shows hat).range) (Nat.le_refl _)

theorem PlaysAt.moveTo_nextFrame (hat : AtStart tr) (now : Word) (hk : k < tr.span) :
    PlaysAt tr (k + 1) rev (u.moveTo now u.nextFrame) :=
  h.moveTo now ((h.shows hat).nextFrame_toNat (by rwa [h.span_eq])) hk

theorem PlaysAt.moveTo_prevFrame (hat : AtStart tr) (now : Word) (hk : 0 < k) :
    PlaysAt tr (k - 1) rev (u.moveTo now u.prevFrame) :=
  h.moveTo now ((h.shows hat).prevFrame_toNat hk) ((Nat.sub_le k 1).trans h.1)

end PlaysAt

/-- The tick after tick `j` of a run whose rounds have `p` ticks is in the same round, or begins the
next. -/
theorem succ_mod_cases (j : Nat) {p : Nat} (hp : 0 < p) :
    (j % p + 1 < p ∧ (j + 1) % p = j % p + 1) ∨ (j % p + 1 = p ∧ (j + 1) % p = 0) := by
  rw [← Nat.mod_add_mod]
  exact (Nat.lt_or_eq_of_le (Nat.mod_lt j hp)).imp (fun h => ⟨h, Nat.mod_eq_of_lt h⟩)
    fun h => ⟨h, by rw [h, Nat.mod_self]⟩

/-! ## Runs that complete -/

/-- After `j` ticks of a run that completes on tick `n`: before it `plays` says what the layer is,
from it on the layer is COMPLETED at the frame `d` from its first. -/
def CompletesOn (tr : Track) (n d : Nat) (plays : Nat → Track → Prop) (j : Nat) (u : Track) :
    Prop :=
  (j < n ∧ plays j u) ∨ (n ≤ j ∧ u.state = .completed ∧ u.cur.toNat = fromFirst tr d)

section CompletesOn

variable {tr u : Track} {n d j : Nat} {plays : Nat → Track → Prop}
  (h : CompletesOn tr n d plays j u)
include h

theorem CompletesOn.of_lt (hj : j < n) : plays j u :=
  h.elim And.right fun ⟨hge, _⟩ => absurd hj hge.not_gt

theorem CompletesOn.of_le (hj : n ≤ j) :
    u.state = .completed ∧ u.cur.toNat = fromFirst tr d :=
  h.elim (fun ⟨hlt, _⟩ => absurd hlt hj.not_gt) And.right

/-- One more tick: before the last it keeps `plays`, the last completes. -/
theorem CompletesOn.step {L : Nat} {now : Word}
    (hmove : j + 1 < n → plays j u → plays (j + 1) (u.advance L now))
    (hlast : j + 1 = n → plays j u →
      u.advance L now = u.complete ∧ u.cur.toNat = fromFirst tr d) :
    CompletesOn tr n d plays (j + 1) (u.advance L now) := by
  obtain ⟨hj, hplays⟩ | ⟨hj, hcompleted, hcur⟩ := h
  · rcases Nat.lt_or_eq_of_le (Nat.succ_le_of_lt hj) with hlt | heq
    · exact .inl ⟨hlt, hmove hlt hplays⟩
    · obtain ⟨hcomplete, hcur⟩ := hlast heq hplays
      rw [hcomplete]
      exact .inr ⟨heq.ge, rfl, hcur⟩
  · rw [Track.advance_completed hcompleted]
    exact .inr ⟨hj.trans (Nat.le_succ j), hcompleted, hcur⟩

end CompletesOn

/-! ## ONCE and LOOP (40_track.md R129(a), (b)) -/

section OnceOrLoop

variable {tr u : Track} {k L : Nat} {now : Word} (h : PlaysAt tr k false u) (hat : AtStart tr)
  (hx : expired L now u)
include h hat hx

theorem PlaysAt.advance_onceOrLoop (hm : tr.mode = .once ∨ tr.mode = .loop) : u.advance L now =
    if tr.span ≤ k then (if tr.mode = .once then u.complete else u.moveTo now u.init)
    else u.moveTo now u.nextFrame := by
  rw [← h.mode_eq] at hm ⊢
  simp only [Track.advance_onceOrLoop (h.due hat hx) hm, (h.shows hat).atEnd_iff, h.span_eq]

theorem PlaysAt.advance_next (hm : tr.mode = .once ∨ tr.mode = .loop) (hk : k + 1 < frames tr) :
    PlaysAt tr (k + 1) false (u.advance L now) := by
  have hlt : k < tr.span := Nat.lt_of_succ_lt_succ hk
  rw [h.advance_onceOrLoop hat hx hm, if_neg hlt.not_ge]
  exact h.moveTo_nextFrame hat now hlt

theorem PlaysAt.advance_once_last (hm : tr.mode = .once) (hk : k + 1 = frames tr) :
    u.advance L now = u.complete := by
  rw [h.advance_onceOrLoop hat hx (.inl hm), if_pos (eq_span_of_succ_eq hk).ge, if_pos hm]

theorem PlaysAt.advance_loop_last (hm : tr.mode = .loop) (hk : k + 1 = frames tr) :
    PlaysAt tr 0 false (u.advance L now) := by
  rw [h.advance_onceOrLoop hat hx (.inr hm), if_pos (eq_span_of_succ_eq hk).ge, hm, if_neg nofun]
  exact h.moveTo_init now

end OnceOrLoop

/-- The layer after `j` ticks in ONCE mode: the N-th completes at the far bound. -/
abbrev OnceRun (tr : Track) : Nat → Track → Prop :=
  CompletesOn tr (frames tr) tr.span fun j => PlaysAt tr j false

section Runs

variable {tr u : Track} {j L : Nat} {now : Word} (hat : AtStart tr) (hx : expired L now u)
include hat hx

theorem OnceRun.advance (hm : tr.mode = .once) (h : OnceRun tr j u) :
    OnceRun tr (j + 1) (u.advance L now) :=
  h.step (fun hj hplays => hplays.advance_next hat hx (.inl hm) hj) fun hj hplays =>
    ⟨hplays.advance_once_last hat hx hm hj, eq_span_of_succ_eq hj ▸ hplays.cur⟩

/-- One more tick of a LOOP run. -/
theorem PlaysAt.advance_loop (hm : tr.mode = .loop) (h : PlaysAt tr (j % frames tr) false u) :
    PlaysAt tr ((j + 1) % frames tr) false (u.advance L now) := by
  obtain ⟨hk, hnext⟩ | ⟨hk, hnext⟩ := succ_mod_cases j (p := frames tr) (Nat.succ_pos _)
  · rw [hnext]
    exact h.advance_next hat hx (.inr hm) hk
  · rw [hnext]
    exact h.advance_loop_last hat hx hm hk

end Runs

/-! ## The boomerang modes (40_track.md R126, R129(c), (d)) -/

/-- The tick of a round that shows the far bound: a one-frame range turns on its first tick. -/
def turnTick (tr : Track) : Nat := max tr.span 1

theorem turnTick_eq (tr : Track) : turnTick tr = max tr.span 1 := rfl

theorem turnTick_pos (tr : Track) : 0 < turnTick tr := Nat.le_max_right _ _

theorem two_mul_turnTick_pos (tr : Track) : 0 < 2 * turnTick tr :=
  Nat.mul_pos Nat.two_pos (turnTick_pos tr)

/-- The layer after tick `k` of a round of `2 * turnTick` ticks: out to the far bound and back. -/
def RoundAt (tr : Track) (k : Nat) (u : Track) : Prop :=
  if k < turnTick tr then PlaysAt tr k false u
  else PlaysAt tr (min (2 * turnTick tr - k) tr.span) true u

theorem RoundAt.of_playsAt_zero {tr u : Track} (h : PlaysAt tr 0 false u) : RoundAt tr 0 u := by
  have hpos := turnTick_pos tr
  rwa [RoundAt, if_pos hpos]

theorem turnTick_of_two_le {tr : Track} (h : 2 ≤ frames tr) : turnTick tr = frames tr - 1 := by
  rw [frames_eq] at *
  rw [turnTick_eq]
  omega

/-- N frames out and N back, each bound once: 2N - 2 ticks. -/
theorem two_mul_turnTick {tr : Track} (h : 2 ≤ frames tr) :
    2 * turnTick tr = 2 * frames tr - 2 := by
  rw [turnTick_of_two_le h, Nat.mul_sub]

theorem turnTick_of_one {tr : Track} (h : frames tr = 1) : turnTick tr = 1 := by
  rw [frames_eq] at h
  rw [turnTick_eq]
  omega

/-- On at least two frames, the frame shown after tick `k` of a round (40_track.md R126). -/
theorem RoundAt.shown {tr u : Track} {k : Nat} (h : RoundAt tr k u) (htwo : 2 ≤ frames tr) :
    u.state = .playing ∧ u.cur.toNat =
      fromFirst tr (if k < frames tr then k else 2 * frames tr - 2 - k) := by
  unfold RoundAt at h
  rw [turnTick_of_two_le htwo] at h
  split at h
  · next hout =>
    rw [if_pos (by omega)]
    exact ⟨h.playing, h.cur⟩
  · next hout =>
    refine ⟨h.playing, h.cur.trans (congrArg _ ?_)⟩
    rw [frames_eq] at *
    split <;> omega

/-- On one frame it is that frame. -/
theorem RoundAt.shown_oneFrame {tr u : Track} {k : Nat} (h : RoundAt tr k u)
    (hone : frames tr = 1) : u.state = .playing ∧ u.cur.toNat = fromFirst tr 0 := by
  have hspan : tr.span = 0 := (eq_span_of_succ_eq hone.symm).symm
  rw [RoundAt, turnTick_eq, hspan] at h
  split at h
  · next hout =>
    obtain rfl : k = 0 := by omega
    exact ⟨h.playing, h.cur⟩
  · exact ⟨h.playing, h.cur.trans (congrArg _ (Nat.min_zero _))⟩

section Round

variable {tr u : Track} {k L : Nat} {now : Word} (hat : AtStart tr)
  (hm : tr.mode = .boomerang ∨ tr.mode = .boomerangOnce) (hx : expired L now u)
include hat hm hx

theorem PlaysAt.advance_boomerang {rev : Bool} (h : PlaysAt tr k rev u) :
    u.advance L now = u.stepBoomerang now :=
  Track.advance_boomerang (h.due hat hx) (by rwa [h.mode_eq])

theorem PlaysAt.advance_out (h : PlaysAt tr k false u) (hk : k < turnTick tr) :
    RoundAt tr (k + 1) (u.advance L now) := by
  rw [h.advance_boomerang hat hm hx, (h.shows hat).stepBoomerang_out now h.isRev_eq, h.span_eq]
  have hturnTick := turnTick_eq tr
  split
  · next hturn =>
    have hfar : min (2 * turnTick tr - (k + 1)) tr.span = tr.span := by omega
    have hback : ¬ k + 1 < turnTick tr := by omega
    rw [RoundAt, if_neg hback, hfar]
    exact (h.moveTo_far hat now).withIsRev true
  · next hturn =>
    have hout : k + 1 < turnTick tr := by omega
    rw [RoundAt, if_pos hout]
    exact h.moveTo_nextFrame hat now (by omega)

theorem PlaysAt.advance_back (h : PlaysAt tr k true u) (hk : 1 < k) :
    PlaysAt tr (k - 1) true (u.advance L now) := by
  rw [h.advance_boomerang hat hm hx, (h.shows hat).stepBoomerang_back now h.isRev_eq,
    if_neg hk.not_ge]
  exact h.moveTo_prevFrame hat now (Nat.zero_lt_of_lt hk)

/-- A tick inside a round. -/
theorem RoundAt.advance (h : RoundAt tr k u) (hk : k + 1 < 2 * turnTick tr) :
    RoundAt tr (k + 1) (u.advance L now) := by
  unfold RoundAt at h
  split at h
  · next hout => exact h.advance_out hat hm hx hout
  · next hout =>
    have hturnTick := turnTick_eq tr
    have hback : ¬ k + 1 < turnTick tr := by omega
    have hdist : min (2 * turnTick tr - (k + 1)) tr.span =
        min (2 * turnTick tr - k) tr.span - 1 := by omega
    rw [RoundAt, if_neg hback, hdist]
    exact h.advance_back hat hm hx (by omega)

/-- The last tick of a round: one frame from the first, or on the only frame, the layer completes or
begins the next round. -/
theorem RoundAt.advance_last (h : RoundAt tr k u) (hk : k + 1 = 2 * turnTick tr) :
    u.cur.toNat = fromFirst tr (min 1 tr.span) ∧
      (tr.mode = .boomerangOnce → u.advance L now = u.complete) ∧
      (tr.mode = .boomerang → RoundAt tr 0 (u.advance L now)) := by
  have hpos := turnTick_pos tr
  have hone : 2 * turnTick tr - k = 1 := by omega
  rw [RoundAt, if_neg (by omega), hone] at h
  have hstep : u.advance L now = if tr.mode = .boomerangOnce then u.complete
      else { u.moveTo now u.init with isRev := false } := by
    rw [h.advance_boomerang hat hm hx, (h.shows hat).stepBoomerang_back now h.isRev_eq,
      if_pos (Nat.min_le_left _ _), h.mode_eq]
  refine ⟨h.cur, fun hmode => by rw [hstep, if_pos hmode], fun hmode => ?_⟩
  rw [hstep, hmode, if_neg nofun]
  exact .of_playsAt_zero ((h.moveTo_init now).withIsRev false)

end Round

/-- The layer after `j` ticks in BOOMERANG_ONCE mode: the last of the first round completes, one
frame from the first or on the only frame. -/
abbrev BoomerangOnceRun (tr : Track) : Nat → Track → Prop :=
  CompletesOn tr (2 * turnTick tr) (min 1 tr.span) (RoundAt tr)

section Runs

variable {tr u : Track} {j L : Nat} {now : Word} (hat : AtStart tr) (hx : expired L now u)
include hat hx

/-- One more tick of a BOOMERANG run. -/
theorem RoundAt.advance_boomerang (hm : tr.mode = .boomerang)
    (h : RoundAt tr (j % (2 * turnTick tr)) u) :
    RoundAt tr ((j + 1) % (2 * turnTick tr)) (u.advance L now) := by
  obtain ⟨hk, hnext⟩ | ⟨hk, hnext⟩ := succ_mod_cases j (two_mul_turnTick_pos tr)
  · rw [hnext]
    exact h.advance hat (.inl hm) hx hk
  · rw [hnext]
    obtain ⟨-, -, hagain⟩ := h.advance_last hat (.inl hm) hx hk
    exact hagain hm

theorem BoomerangOnceRun.advance (hm : tr.mode = .boomerangOnce) (h : BoomerangOnceRun tr j u) :
    BoomerangOnceRun tr (j + 1) (u.advance L now) :=
  h.step (fun hj hround => hround.advance hat (.inr hm) hx hj) fun hj hround =>
    have ⟨hcur, hcomplete, _⟩ := hround.advance_last hat (.inr hm) hx hj
    ⟨hcomplete hm, hcur⟩

end Runs

/-! ## Speed, PAUSE and RESUME (40_track.md R140 to R144) -/

theorem Track.setSpeed_eq (now ms : Word) (t : Track) : t.setSpeed now ms =
    if t.count = 0#16 then t
    else if ms = 0#32 then t.pause
    else Track.resume now { t with speed := ms, isCustom := true } := by
  by_cases hc : t.count = 0#16 <;> simp [Track.setSpeed, Track.valid, hc]

/-! ## The transition table (40_track.md R145, R146) -/

theorem Track.pause_state (t : Track) :
    t.pause.state = if t.state = .playing then .paused else t.state := by
  unfold Track.pause
  split <;> rfl

theorem Track.resume_state (now : Word) (t : Track) :
    (t.resume now).state = if t.state = .paused then .playing else t.state := by
  unfold Track.resume
  split <;> rfl

theorem Track.restoreSpeed_state (now : Word) (t : Track) :
    (t.restoreSpeed now).state = if t.state = .paused then .playing else t.state :=
  Track.resume_state now _

theorem Track.setSpeed_state (now ms : Word) (t : Track) : (t.setSpeed now ms).state =
    if t.count = 0#16 then t.state
    else if ms = 0#32 then (if t.state = .playing then .paused else t.state)
    else (if t.state = .paused then .playing else t.state) := by
  rw [Track.setSpeed_eq]
  split
  · rfl
  · split
    · exact Track.pause_state t
    · exact Track.resume_state now _

/-- A tick leaves the state, or completes a PLAYING layer whose interval has passed. -/
theorem Track.advance_state_mem (L : Nat) (now : Word) (t : Track) : (t.advance L now).state ∈
    if t.state = .playing ∧ expired L now t then [PlayState.playing, .completed]
    else [t.state] := by
  rcases t.advance_state (L := L) (now := now) with hsame | ⟨hp, hdue, hcompleted, -⟩
  · rw [hsame]
    split
    · next h => simp [h.1]
    · simp
  · have hexpired : expired L now t := ((Track.due_iff ..).mp hdue).2.2
    rw [if_pos ⟨hp, hexpired⟩, hcompleted]
    simp

/-- START leaves PLAYING or IDLE, STOP leaves IDLE. -/
theorem not_startedOrStopped_completed (L : Nat) (i : Instr) :
    ¬ startedOrStopped L .completed i := by
  cases i <;> simp [startedOrStopped]

/-- What a command can do to the state of a layer: leave it, START or STOP the layer, pause or play
it, or complete it by a tick in a mode that completes. -/
theorem State.layerAfter_state_cases (s : State) (i : Instr) (L : Nat) (tr : Track) :
    (s.layerAfter i L tr).state = tr.state ∨
      startedOrStopped L (s.layerAfter i L tr).state i ∨
      (tr.state ≠ .completed ∧ (s.layerAfter i L tr).state ≠ .completed) ∨
      (tr.state = .playing ∧ ticks L i ∧ (tr.mode = .once ∨ tr.mode = .boomerangOnce)) := by
  have tick : (tr.advance L s.inp.now).state = tr.state ∨
      (tr.state = .playing ∧ (tr.mode = .once ∨ tr.mode = .boomerangOnce)) :=
    tr.advance_state.imp_right fun ⟨hp, _, _, hm⟩ => ⟨hp, hm⟩
  cases i <;> simp only [State.layerAfter, startedOrStopped, ticks]
  case start ly md pr base count sf ef =>
    by_cases hL : L = ly
    · by_cases hfails : startFails s.params.maxFrames pr count = true
      · simp [hL, hfails, Track.release]
      · simp [hL, hfails, Track.started]
    · simp [hL]
  case stop ly => by_cases hL : L = ly <;> simp [hL, Track.release]
  case trackTick ly =>
    by_cases hL : L = ly
    · subst hL
      simpa using tick.imp_right .inr
    · simp [hL]
  case layersUpdate => simpa using tick.imp_right .inr
  case setSpeed ly ms =>
    by_cases hL : L = ly
    · simp only [hL, if_true, Track.setSpeed_state]
      split
      · simp
      · split <;> split <;> simp [*]
    · simp [hL]
  case pause ly =>
    by_cases hL : L = ly
    · by_cases hp : tr.state = .playing <;> simp [hL, hp, Track.pause_state]
    · simp [hL]
  case resume ly | restoreSpeed ly =>
    by_cases hL : L = ly
    · by_cases hp : tr.state = .paused <;>
        simp [hL, hp, Track.resume_state, Track.restoreSpeed_state]
    · simp [hL]
  all_goals exact .inl trivial

end Sys2Proof.Machine

namespace Sys2Proof.Claims

open Sys2Proof.Machine

/-- Settles O17: the range by `startRange_values`, the durations by the copy, the rest as `started`
writes it. -/
theorem startLoadsTheAnimation : Obligations.StartLoadsTheAnimation := by
  intro s ly md base count sf ef tr htr hcount hcapacity hreadable
  obtain ⟨ds, hds⟩ := State.copyTimings_of_readable (base := base) (k := 0) fun j hj => by
    rw [Nat.zero_add]
    exact hreadable j hj
  obtain ⟨hlength, hreads⟩ := State.copyTimings_ok hds
  have hpasses : ¬ startFails s.params.maxFrames true count = true := by
    rw [startFails_iff]
    rintro (h | h | h)
    · cases h
    · exact hcount h
    · omega
  obtain ⟨hs, he, hdir⟩ := startRange_values count sf ef hcount
  refine ⟨_, _, execStart_passes htr hpasses hds, State.onTrack_onlyLayer ..,
    State.onTrack_get_some htr _, ⟨hs, he, hdir, ?_⟩, fun k hk => ?_, fun k hk => ?_, rfl⟩
  · simp only [Track.started, hdir, ite_eq_left_iff, reduceCtorEq, imp_false, not_not]
  · rw [← hlength] at hk
    have hread := hreads k hk
    rw [Nat.zero_add] at hread
    rw [Track.started_timingAt_of_lt ly hk]
    exact hread
  · exact Track.started_timingAt_of_le ly (hlength.le.trans hk)

/-- Settles O18: a START that fails is a release. -/
theorem startFailsIntoIdle : Obligations.StartFailsIntoIdle :=
  fun s ly _ _ _ _ _ _ _ htr hfails =>
    ⟨_, execStart_fails htr (startFails_iff.mpr hfails), s.onTrack_onlyLayer ly _,
      State.onTrack_get_some htr _⟩

/-- Settles O21: the layer is not due. -/
theorem tickThatIsNotDueChangesNothing : Obligations.TickThatIsNotDueChangesNothing :=
  fun s ly _ htr h => (exec_trackTick ly s).trans
    (congrArg _ (State.onTrack_self htr (Track.advance_of_not_due h)))

/-- Settles O22: the two steps in one by `Track.advance_onceOrLoop`. -/
theorem dueTickStepsOnceAndLoop : Obligations.DueTickStepsOnceAndLoop := by
  intro s ly tr htr hp hc hx hm
  refine ⟨_, exec_trackTick ly s, s.onTrack_onlyLayer ly _, ?_⟩
  have hinit : tr.init = if tr.dir = .fwd then tr.s else tr.e := by
    cases hdir : tr.dir <;> simp [Track.init, hdir]
  rw [State.onTrack_get_some htr, Track.advance_onceOrLoop (Track.due_of_expired hp hc hx) hm,
    hinit]
  rfl

/-- Settles O23: by the step out and the step back, in distances. -/
theorem dueTickStepsBoomerang : Obligations.DueTickStepsBoomerang := by
  intro s ly tr htr hp hc hx hm hlo hhi
  refine ⟨_, _, exec_trackTick ly s, s.onTrack_onlyLayer ly _, State.onTrack_get_some htr _, ?_⟩
  intro k hcur hk
  have hshows : tr.Shows k := ⟨BitVec.le_def.mp (BitVec.le_trans hlo hhi), hcur, hk⟩
  rw [Track.advance_boomerang (Track.due_of_expired hp hc hx) hm, ← Track.init_eq, ← Track.far_eq,
    ← Track.span_eq]
  refine ⟨fun ⟨hr, hlt⟩ => ?_, fun ⟨hr, hle⟩ => ?_, fun ⟨hr, hlt⟩ => ?_, fun ⟨hr, hle, hmode⟩ => ?_,
    fun ⟨hr, hle, hmode⟩ => ?_⟩
  · rw [hshows.stepBoomerang_out _ hr, if_neg hlt.not_ge]
    exact ⟨hshows.nextFrame_toNat (Nat.lt_of_succ_lt hlt), rfl⟩
  · rw [hshows.stepBoomerang_out _ hr, if_pos hle]
    rfl
  · rw [hshows.stepBoomerang_back _ hr, if_neg hlt.not_ge]
    exact ⟨hshows.prevFrame_toNat (Nat.zero_lt_of_lt hlt), rfl⟩
  · have hnot : tr.mode ≠ .boomerangOnce := by rw [hmode]; nofun
    rw [hshows.stepBoomerang_back _ hr, if_pos hle, if_neg hnot]
    rfl
  · rw [hshows.stepBoomerang_back _ hr, if_pos hle, if_pos hmode]
    rfl

/-- Settles O24: N - 1 ticks move, the N-th completes, later ones change nothing. -/
theorem onceCompletesOnDueTickN : Obligations.OnceCompletesOnDueTickN := by
  intro s ly tr nows htr hat hm hexpired
  obtain ⟨t, u, ht, hu, hrun⟩ := tickAll_induction
    (fun _ _ _ h hx => OnceRun.advance hat hx hm h) nows htr
    (.inl ⟨Nat.succ_pos _, .start hat⟩) hexpired
  rw [Nat.zero_add] at hrun
  refine ⟨t, u, ht, hu, fun hlt => ⟨(hrun.of_lt hlt).playing, (hrun.of_lt hlt).cur⟩,
    fun hge => ?_⟩
  obtain ⟨hcompleted, hcur⟩ := hrun.of_le hge
  have hfar := Track.far_toNat (BitVec.le_def.mp hat.range)
  rw [← Track.far_eq]
  exact ⟨hcompleted, BitVec.eq_of_toNat_eq (hcur.trans hfar.symm)⟩

/-- Settles O25: N - 1 ticks move, the N-th shows the first frame again. -/
theorem loopHasPeriodN : Obligations.LoopHasPeriodN := by
  intro s ly tr nows htr hat hm hexpired
  obtain ⟨t, u, ht, hu, hplays⟩ := tickAll_induction
    (P := fun j => PlaysAt tr (j % frames tr) false)
    (fun _ _ _ h hx => h.advance_loop hat hx hm) nows (j := 0) htr
    (by rw [Nat.zero_mod]; exact .start hat) hexpired
  rw [Nat.zero_add] at hplays
  exact ⟨t, u, ht, hu, hplays.playing, hplays.cur⟩

/-- Settles O26: each tick moves on in its round, and the last of a round begins the next. -/
theorem boomerangHasPeriodTwoNMinusTwo : Obligations.BoomerangHasPeriodTwoNMinusTwo := by
  intro s ly tr nows htr hat hm htwo hexpired
  obtain ⟨t, u, ht, hu, hround⟩ := tickAll_induction
    (P := fun j => RoundAt tr (j % (2 * turnTick tr)))
    (fun _ _ _ h hx => h.advance_boomerang hat hx hm) nows (j := 0) htr
    (by rw [Nat.zero_mod]; exact .of_playsAt_zero (.start hat)) hexpired
  rw [Nat.zero_add, two_mul_turnTick htwo] at hround
  exact ⟨t, u, ht, hu, hround.shown htwo⟩

/-- Settles O27: the ticks of one round, of which the last completes; a one-frame range has a round
of two ticks. -/
theorem boomerangOnceCompletesOnTheWayBack : Obligations.BoomerangOnceCompletesOnTheWayBack := by
  intro s ly tr nows htr hat hm hexpired
  obtain ⟨t, u, ht, hu, hrun⟩ := tickAll_induction
    (fun _ _ _ h hx => BoomerangOnceRun.advance hat hx hm h) nows htr
    (.inl ⟨two_mul_turnTick_pos tr, .of_playsAt_zero (.start hat)⟩) hexpired
  rw [Nat.zero_add] at hrun
  have hfirst := (PlaysAt.start hat).cur
  refine ⟨t, u, ht, hu, fun htwo hlt => ?_, fun htwo hle => ?_, fun hone hlt => ?_,
    fun hone hle => ?_⟩
  · exact (hrun.of_lt (two_mul_turnTick htwo ▸ hlt)).shown htwo
  · have hdist : min 1 tr.span = 1 := Nat.min_eq_left (Nat.le_of_succ_le_succ htwo)
    have hdone := hrun.of_le (two_mul_turnTick htwo ▸ hle)
    rwa [hdist] at hdone
  · have hlast : nows.length < 2 * turnTick tr := by rwa [turnTick_of_one hone]
    obtain ⟨hplaying, hcur⟩ := (hrun.of_lt hlast).shown_oneFrame hone
    exact ⟨hplaying, BitVec.eq_of_toNat_eq (hcur.trans hfirst.symm)⟩
  · have hspan : tr.span = 0 := (eq_span_of_succ_eq hone.symm).symm
    have hlast : 2 * turnTick tr ≤ nows.length := by rwa [turnTick_of_one hone]
    obtain ⟨hcompleted, hcur⟩ := hrun.of_le hlast
    rw [hspan] at hcur
    exact ⟨hcompleted, BitVec.eq_of_toNat_eq (hcur.trans hfirst.symm)⟩

/-- Settles O28: by the cases of `Track.setSpeed_eq`. -/
theorem setSpeedOverridesOrPauses : Obligations.SetSpeedOverridesOrPauses := by
  intro s ly ms
  obtain ⟨t, hnext, honly, hget⟩ := exists_next_onTrack s ly (Track.setSpeed s.inp.now ms)
  refine ⟨t, hnext, honly, hget.trans (congrArg (Option.map · _) (funext fun tr => ?_))⟩
  rw [Track.setSpeed_eq]
  rfl

/-- Settles O31: each row of the table by the state its command leaves in the layer it names; that a
PLAYING or PAUSED layer holds an animation is the invariant's. -/
theorem trackStatesFollowTheTable : Obligations.TrackStatesFollowTheTable := by
  intro i s t L tr hinv htr he
  refine ⟨s.layerAfter i L tr, by rw [exec_layerAfter he, htr]; rfl, ?_⟩
  cases i <;> simp only [statesAfter, State.layerAfter, eq_comm (a := L)]
  case start ly md pr base count sf ef =>
    have hpasses : (pr = true ∧ count ≠ 0#16 ∧ count.toNat ≤ s.params.maxFrames) ↔
        ¬ startFails s.params.maxFrames pr count = true := by
      simp [startFails_iff]
    by_cases hL : ly = L
    · by_cases hfails : startFails s.params.maxFrames pr count = true
      · simp [hL, hpasses, hfails, Track.release]
      · simp [hL, hpasses, hfails, Track.started]
    · simp [hL]
  case stop ly => by_cases hL : ly = L <;> simp [hL, Track.release]
  case trackTick ly =>
    by_cases hL : ly = L
    · simpa only [hL, true_and, if_true] using tr.advance_state_mem L s.inp.now
    · simp [hL]
  case layersUpdate => exact tr.advance_state_mem L s.inp.now
  case setSpeed ly ms =>
    by_cases hL : ly = L
    · by_cases hcount : tr.count = 0#16
      · have hidle := (hinv.tracks tr (List.mem_of_getElem? htr)).idle_iff.mpr hcount
        simp [hL, Track.setSpeed_state, hcount, hidle]
      · simp only [hL, Track.setSpeed_state, hcount, if_true, if_false]
        split <;> split <;> simp
    · simp [hL]
  case pause ly =>
    by_cases hL : ly = L
    · by_cases hp : tr.state = .playing <;> simp [hL, hp, Track.pause_state]
    · simp [hL]
  case resume ly | restoreSpeed ly =>
    by_cases hL : ly = L
    · by_cases hp : tr.state = .paused <;>
        simp [hL, hp, Track.resume_state, Track.restoreSpeed_state]
    · simp [hL]
  all_goals exact List.mem_singleton.mpr rfl

/-- Settles O32: no case of `State.layerAfter_state_cases` but START, STOP and a completing tick has
COMPLETED on one side only. -/
theorem completedIsLeftOnlyByStartOrStop : Obligations.CompletedIsLeftOnlyByStartOrStop := by
  intro i s t L tr u htr hu he
  rw [exec_layerAfter he, htr, Option.map_some, Option.some_inj] at hu
  subst hu
  obtain hsame | hcommand | ⟨hbefore, hafter⟩ | ⟨hplaying, hticks, hmode⟩ :=
    s.layerAfter_state_cases i L tr
  · exact ⟨fun h => .inl (hsame.trans h), fun hne h => absurd (hsame.symm.trans h) hne⟩
  · refine ⟨fun _ => .inr hcommand, fun _ h => ?_⟩
    rw [h] at hcommand
    exact absurd hcommand (not_startedOrStopped_completed L i)
  · exact ⟨fun h => absurd h hbefore, fun _ h => absurd h hafter⟩
  · exact ⟨fun h => absurd (hplaying.symm.trans h) nofun, fun _ _ => ⟨hticks, hmode⟩⟩

/-- Settles O20: STOP is a release of its layer. -/
theorem stopReleasesTheLayer : Obligations.StopReleasesTheLayer :=
  fun s ly => exists_next_onTrack s ly Track.release

/-- Settles O29: each is a change of its layer. -/
theorem pauseAndResume : Obligations.PauseAndResume := fun s ly =>
  ⟨exists_next_onTrack s ly Track.pause, exists_next_onTrack s ly (Track.resume s.inp.now)⟩

/-- Settles O30: the resume follows the cleared override. -/
theorem restoreSpeedClearsTheOverride : Obligations.RestoreSpeedClearsTheOverride :=
  fun s ly => exists_next_onTrack s ly (Track.restoreSpeed s.inp.now)

end Sys2Proof.Claims
end

section
/-! PROOFS. The statements of 41_layerset.md: the layers are independent, LAYERS_UPDATE and its loop,
GET_FRAME, and the settings. -/

namespace Sys2Proof.Machine

open Sys2Proof.Claims (frameBit)

/-! ## Layers are independent (41_layerset.md R166) -/

/-- Of the state around the layer, a command that does not START it reads NOW only. -/
theorem State.layerAfter_congr {s s' : State} {i : Instr} {L : Nat} (hnow : s.inp.now = s'.inp.now)
    (hstart : ∀ md pr base count sf ef, i ≠ .start L md pr base count sf ef) :
    s.layerAfter i L = s'.layerAfter i L := by
  funext tr
  cases i
  case start ly md pr base count sf ef =>
    have hL : L ≠ ly := by
      rintro rfl
      exact hstart _ _ _ _ _ _ rfl
    simp only [State.layerAfter, if_neg hL]
  all_goals simp only [State.layerAfter, hnow]

/-! ## One frame: the fault, and one cell of it (41_layerset.md R160, R164) -/

theorem Track.valid_iff {t : Track} : t.valid = true ↔ t.count ≠ 0#16 := by
  rw [Track.valid_eq, bne_iff_ne]

/-- The first word of the row that is not readable is the one the fetch reports
(60_exceptions.md R254). -/
theorem State.fetchFrame_fault {s : State} {n j : Nat} {t : Track} (hj : j < 3)
    (hbefore : ∀ k, k < j → s.readable (rowWord t.base t.cur.toNat k) = true)
    (hword : s.readable (rowWord t.base t.cur.toNat j) = false) :
    s.fetchFrame n t = .error (.animReadOutsideWindow (rowWord t.base t.cur.toNat j)) := by
  have hfault := fun m => State.memRead_unreadable (n := m) hword
  match j, hj with
  | 0, _ => simp only [State.fetchFrame, hfault]
  | 1, _ =>
    obtain ⟨w0, h0⟩ := State.memRead_of_readable (n := n) (hbefore 0 Nat.zero_lt_one)
    simp only [State.fetchFrame, h0, hfault]
  | 2, _ =>
    obtain ⟨w0, h0⟩ := State.memRead_of_readable (n := n) (hbefore 0 Nat.two_pos)
    obtain ⟨w1, h1⟩ := State.memRead_of_readable (n := n + 1) (hbefore 1 Nat.one_lt_two)
    simp only [State.fetchFrame, h0, h1, hfault]

/-- A cell of the frame fetched is lit when its bit of its word is set, in the word that is read. -/
theorem State.fetchFrame_lights_iff {s : State} {n : Nat} {t : Track}
    (hread : ∀ j, j < 3 → s.readable (rowWord t.base t.cur.toNat j) = true) (d : Cell) :
    (∃ p, s.fetchFrame n t = .ok p ∧ (unpack p).getLsbD d.val = true) ↔
      ∃ w, s.memRead (n + d.val / 32) (rowWord t.base t.cur.toNat (d.val / 32)) = .ok w ∧
        w.getLsbD (31 - d.val % 32) = true := by
  obtain ⟨p, hp⟩ := State.fetchFrame_of_readable (n := n) hread
  have hword := State.fetchFrame_ok hp (d.val / 32) (by omega)
  simp only [hp, hword, Except.ok.injEq, exists_eq_left', getLsbD_unpack_cell, frameBit_eq_word]

/-! ## GET_FRAME (41_layerset.md R164) -/

section GetFrame

variable {s : State} {ly : Nat} {tr : Track}

theorem execGetFrame_of_frame {p : Packed} (htr : s.trk[ly]? = some tr) (hc : tr.count ≠ 0#16)
    (hp : s.fetchFrame 0 tr = .ok p) :
    execGetFrame ly s = .next (s.respond ⟨1#32, p.w0, p.w1, p.w2⟩) := by
  simp only [execGetFrame, htr, Track.valid_iff.mpr hc, if_true, hp]

theorem execGetFrame_of_fault {f : Fault} (htr : s.trk[ly]? = some tr) (hc : tr.count ≠ 0#16)
    (hf : s.fetchFrame 0 tr = .error f) : execGetFrame ly s = .fault f := by
  simp only [execGetFrame, htr, Track.valid_iff.mpr hc, if_true, hf]

theorem execGetFrame_of_no_animation (h : ∀ tr, s.trk[ly]? = some tr → tr.count = 0#16) :
    execGetFrame ly s = .next (s.respond ⟨0#32, 0#32, 0#32, 0#32⟩) := by
  cases htr : s.trk[ly]? with
  | none => simp only [execGetFrame, htr]
  | some tr =>
    have hv : ¬ tr.valid = true := fun hv => Track.valid_iff.mp hv (h tr htr)
    simp only [execGetFrame, htr, if_neg hv]

end GetFrame

/-! ## LAYERS_UPDATE (41_layerset.md R160 to R162, R165) -/

/-- A layer's tick inside LAYERS_UPDATE is its TRACK_TICK. -/
theorem State.advanceAll_get (s : State) (L : Nat) :
    s.advanceAll.trk[L]? = (s.onTrack L (Track.advance L s.inp.now)).trk[L]? := by
  rw [State.advanceAll_getElem?, State.onTrack_get]

theorem execLayersUpdate_of_composite {s : State} {C : FrameVec}
    (hC : s.advanceAll.compositeFrom 0 s.advanceAll.trk = .ok C) :
    execLayersUpdate s = .next (s.advanceAll.sinkWrite (pack (invertIf s.layerInvert C))) := by
  simp only [execLayersUpdate, hC]

/-- The frames that the valid layers show after their tick are readable. -/
def State.FramesReadable (s : State) : Prop :=
  ∀ (L : Nat) (tr : Track), s.advanceAll.trk[L]? = some tr → tr.count ≠ 0#16 →
    ∀ j, j < 3 → s.readable (rowWord tr.base tr.cur.toNat j) = true

theorem State.FramesReadable.composite {s : State} (h : s.FramesReadable) :
    ∃ C, s.advanceAll.compositeFrom 0 s.advanceAll.trk = .ok C :=
  State.compositeFrom_of_readable fun t ht hv => by
    obtain ⟨L, hL⟩ := List.mem_iff_getElem?.mp ht
    exact h L t hL (Track.valid_iff.mp hv)

/-- A cell of the composite is lit when some valid layer's word lights it, as the word is read. -/
theorem State.FramesReadable.composite_lights_iff {s : State} (h : s.FramesReadable) {C : FrameVec}
    (hC : s.advanceAll.compositeFrom 0 s.advanceAll.trk = .ok C) (d : Cell) :
    C.getLsbD d.val = true ↔ ∃ L tr w, s.advanceAll.trk[L]? = some tr ∧ tr.count ≠ 0#16 ∧
      s.memRead (3 * L + d.val / 32) (rowWord tr.base tr.cur.toNat (d.val / 32)) = .ok w ∧
      w.getLsbD (31 - d.val % 32) = true := by
  have hfetch : ∀ n t, s.advanceAll.fetchFrame n t = s.fetchFrame n t :=
    State.fetchFrame_congr rfl rfl rfl
  rw [State.compositeFrom_ok hC]
  refine exists_congr fun L => exists_congr fun tr => ?_
  simp only [Nat.zero_add, hfetch, Track.valid_iff, exists_and_left]
  exact and_congr_right fun htr => and_congr_right fun hc =>
    State.fetchFrame_lights_iff (h L tr htr hc) d

/-- A cell of the packed frame, complemented or not. -/
theorem frameBit_pack_invertIf (inv : Bool) (F : FrameVec) (d : Cell) :
    frameBit (pack (invertIf inv F)) d.val = true ↔ (inv = true ↔ ¬ F.getLsbD d.val = true) := by
  rw [frameBit_pack, getLsbD_invertIf, decide_eq_true d.isLt, Bool.true_and]
  cases inv <;> simp

/-! ## The loop of LAYERS_UPDATE (41_layerset.md R160; 60_exceptions.md R254) -/

theorem State.advancedTo_zero (s : State) : s.advancedTo 0 = s := by
  have htrk : (s.trk.mapIdx fun k t => if k < 0 then t.advance k s.inp.now else t) = s.trk :=
    List.ext_getElem? fun k => by simp
  rw [State.advancedTo, htrk]

/-- A layer below `L` has advanced, as all will. -/
theorem State.advancedTo_get_of_lt (s : State) {k L : Nat} (hk : k < L) :
    (s.advancedTo L).trk[k]? = s.advanceAll.trk[k]? := by
  simp [State.advancedTo, List.getElem?_mapIdx, hk]

/-- From the state in which the layers below `L` have advanced, the loop over the layers left goes on
as the closed form does: it fetches and combines the same frames, or meets the same first fault. -/
theorem State.compositeLoop_advancedTo (s : State) {n L : Nat} (hn : L + n = s.layers)
    (C : FrameVec) : (s.advancedTo L).compositeLoop C L n =
      (s.advanceAll.compositeFrom L (s.advanceAll.trk.drop L)).map fun D => (s.advanceAll, C ||| D) := by
  induction n generalizing L C with
  | zero =>
    obtain rfl : L = s.layers := hn
    have hdrop : s.advanceAll.trk.drop s.layers = [] :=
      List.drop_eq_nil_of_le s.advanceAll_layers.le
    rw [hdrop, State.advancedTo_all]
    simp only [State.compositeLoop, State.compositeFrom, Except.map, BitVec.or_zero]
  | succ n ih =>
    have hL : L < s.advanceAll.trk.length := by
      have : s.advanceAll.trk.length = s.layers := s.advanceAll_layers
      omega
    have hnext : (s.advancedTo L).onTrack L (Track.advance L (s.advancedTo L).inp.now) =
        s.advancedTo (L + 1) := s.advancedTo_succ L
    have hlayer : (s.advancedTo (L + 1)).trk[L]? = some s.advanceAll.trk[L] :=
      (s.advancedTo_get_of_lt L.lt_succ_self).trans (List.getElem?_eq_getElem hL)
    have hfetch : ∀ m t, (s.advancedTo (L + 1)).fetchFrame m t = s.advanceAll.fetchFrame m t :=
      State.fetchFrame_congr rfl rfl rfl
    have hrest := fun C => ih (L := L + 1) (by omega) C
    rw [List.drop_eq_getElem_cons hL]
    simp only [State.compositeLoop, State.compositeFrom, hnext, hlayer, hfetch, hrest]
    split
    · cases s.advanceAll.fetchFrame (3 * L) s.advanceAll.trk[L] with
      | error f => rfl
      | ok p =>
        cases s.advanceAll.compositeFrom (L + 1) (s.advanceAll.trk.drop (L + 1)) with
        | error f => rfl
        | ok D => simp only [Except.map, BitVec.or_assoc]
    · rfl

/-- The whole loop, from the state the command starts in. -/
theorem State.compositeLoop_eq (s : State) : s.compositeLoop 0#96 0 s.layers =
    (s.advanceAll.compositeFrom 0 s.advanceAll.trk).map fun D => (s.advanceAll, D) := by
  have hloop := s.compositeLoop_advancedTo (Nat.zero_add _) 0#96
  simpa only [State.advancedTo_zero, List.drop_zero, BitVec.zero_or] using hloop

end Sys2Proof.Machine

namespace Sys2Proof.Claims

open Sys2Proof.Machine

/-- Settles O35: the layer after each command is the same function of the layer before it. -/
theorem layersAreIndependent : Obligations.LayersAreIndependent := by
  intro i s s' t t' L htrk hnow hstart he he'
  rw [exec_layerAfter he, exec_layerAfter he', htrk, State.layerAfter_congr hnow hstart]

/-- Settles O36: the readable frames give a composite; the sink frame is its packing, complemented or
not. -/
theorem layersUpdateWritesTheOrOfTheFrames : Obligations.LayersUpdateWritesTheOrOfTheFrames := by
  intro s hread
  have hframes : s.FramesReadable := fun L tr htr hc =>
    hread L _ tr (by simpa using State.not_layers_le htr) (exec_trackTick L s)
      ((s.advanceAll_get L).symm.trans htr) hc
  obtain ⟨C, hC⟩ := hframes.composite
  refine ⟨_, _, execLayersUpdate_of_composite hC, rfl,
    fun L => ⟨_, exec_trackTick L s, s.advanceAll_get L⟩, fun d => ?_⟩
  have hlit := hframes.composite_lights_iff hC d
  exact (frameBit_pack_invertIf s.layerInvert C d).trans (iff_congr Iff.rfl (not_congr hlit))

/-- Settles O37: the loop ends as the closed form does. -/
theorem layersUpdateIsTheSpecsLoop : Obligations.LayersUpdateIsTheSpecsLoop := by
  intro s
  rw [State.compositeLoop_eq]
  simp only [exec, execLayersUpdate]
  cases s.advanceAll.compositeFrom 0 s.advanceAll.trk <;> rfl

/-- Settles O39: by what the fetch of the row that the layer shows gives. -/
theorem getFrameAnswersTheShownFrame : Obligations.GetFrameAnswersTheShownFrame := by
  intro s ly
  refine ⟨fun tr htr hc hread => ?_, fun tr j htr hc hj hbefore hword => ?_,
    execGetFrame_of_no_animation⟩
  · obtain ⟨p, hp⟩ := State.fetchFrame_of_readable (n := 0) hread
    have hwords := State.fetchFrame_ok hp
    exact ⟨p.w0, p.w1, p.w2, execGetFrame_of_frame htr hc hp, hwords 0 (by omega),
      hwords 1 (by omega), hwords 2 (by omega)⟩
  · exact execGetFrame_of_fault htr hc (State.fetchFrame_fault hj hbefore hword)

/-- Settles O38: each command is a write of its setting. -/
theorem settingsWriteThemselvesOnly : Obligations.SettingsWriteThemselvesOnly :=
  fun _ _ _ => ⟨rfl, rfl, rfl⟩

end Sys2Proof.Claims
end

section
/-! PROOFS. The statements of 42_canvas.md: the packer, CANVAS_SET_PIXEL, CANVAS_LOAD_FRAME, and the
round trips of the two frame commands. -/

namespace Sys2Proof.Machine

open Sys2Proof.Claims (frameBit)

/-! ## The packer (42_canvas.md R180 to R183, R187) -/

/-- A cell seen through a 90° or 270° map is its source's value, and 0 without a source
(42_canvas.md R180). -/
theorem throughMap_cell (m : RotMap) (F : FrameVec) (d : Cell) :
    throughMap m F d.val =
      match m[d.val] with
      | some c => F.getLsbD c.val
      | none => false := by
  rw [throughMap, Vector.getElem?_eq_getElem d.isLt]
  cases m[d.val] <;> rfl

/-- A cell of the packer's frame: the rotation first, then the invert (42_canvas.md R182). -/
theorem frameBit_canvasToFrame (s : State) (d : Cell) :
    frameBit (canvasToFrame s) d.val =
      (s.canvasInvert ^^ rotatedCell s.params s.rotation s.canvas d.val) := by
  rw [canvasToFrame, frameBit_pack, getLsbD_invertIf, getLsbD_rotated, decide_eq_true d.isLt,
    Bool.true_and, Bool.true_and, Bool.xor_comm]

/-- CANVAS_TO_FRAME answers 1 and the packer's frame. -/
theorem exec_canvasToFrame_of_frame {s : State} {p : Packed} (hp : canvasToFrame s = p) :
    exec .canvasToFrame s = .next (s.respond ⟨1#32, p.w0, p.w1, p.w2⟩) := by
  rw [← hp]
  rfl

/-! ## CANVAS_SET_PIXEL (42_canvas.md R186) -/

theorem execCanvasSetPixel_in {x y : Nat} (h : x ≤ 11 ∧ y ≤ 7) (v : Bool) (s : State) :
    execCanvasSetPixel x y v s =
      .next { s with canvas := setCell s.canvas ⟨12 * y + x, by omega⟩ v } := by
  simp only [execCanvasSetPixel, gridCell_in h]

theorem execCanvasSetPixel_out {x y : Nat} (h : ¬ (x ≤ 11 ∧ y ≤ 7)) (v : Bool) (s : State) :
    execCanvasSetPixel x y v s = .next s := by
  simp only [execCanvasSetPixel, gridCell_out h]

/-! ## The round trips (42_canvas.md R191, R192) -/

theorem rotated_deg0 (p : Params) (F : FrameVec) : rotated p .deg0 F = F :=
  frame_ext _ _ fun d => by
    rw [getLsbD_rotated, decide_eq_true d.isLt, Bool.true_and, rotatedCell]

/-- Cell `d` comes from cell `95 - d`, and that one from cell `95 - (95 - d) = d`. -/
theorem rotated_deg180_twice (p : Params) (F : FrameVec) :
    rotated p .deg180 (rotated p .deg180 F) = F :=
  frame_ext _ _ fun d => by
    have hopposite : 95 - d.val < 96 := by omega
    have hback : 95 - (95 - d.val) = d.val := by omega
    simp only [getLsbD_rotated, rotatedCell, decide_eq_true d.isLt, decide_eq_true hopposite,
      Bool.true_and, hback]

/-- What the packer makes of a loaded frame without invert. -/
theorem canvasToFrame_load {s : State} (hinv : s.canvasInvert = false) {rot : Rotation}
    (hrot : s.rotation = rot) (p : Packed) :
    canvasToFrame { s with canvas := unpack p } = pack (rotated s.params rot (unpack p)) := by
  simp only [canvasToFrame, hinv, hrot, invertIf, Bool.false_eq_true, if_false]

end Sys2Proof.Machine

namespace Sys2Proof.Claims

open Sys2Proof.Machine

/-- Settles O42: both commands use the packer's frame; its cells are read off the rotation. -/
theorem canvasPackerRotatesThenInverts : Obligations.CanvasPackerRotatesThenInverts := by
  intro s
  refine ⟨canvasToFrame s, exec_canvasToFrame_of_frame rfl, rfl, fun d => ?_⟩
  rw [frameBit_canvasToFrame]
  congr 1
  cases s.rotation with
  | deg0 => rfl
  | deg90 => exact throughMap_cell s.params.rot90Src s.canvas d
  | deg180 => rfl
  | deg270 => exact throughMap_cell s.params.rot270Src s.canvas d

/-- Settles O43: in range the command is a write of one cell, out of range it is none. -/
theorem canvasSetPixelWritesOneCell : Obligations.CanvasSetPixelWritesOneCell := fun s _ _ v =>
  ⟨fun h => ⟨_, execCanvasSetPixel_in h v s, rfl, fun d => getLsbD_setCell s.canvas _ v d.val⟩,
    fun h => execCanvasSetPixel_out h v s⟩

/-- Settles O44: the command writes the unpacked words. -/
theorem canvasLoadFrameUnpacks : Obligations.CanvasLoadFrameUnpacks := fun _ w0 w1 w2 =>
  ⟨_, rfl, rfl, getLsbD_unpack_cell ⟨w0, w1, w2⟩⟩

/-- Settles O45: unrotated, the packer undoes the load. -/
theorem canvasRoundTripGivesTheFrame : Obligations.CanvasRoundTripGivesTheFrame := by
  intro s w0 w1 w2 hrot hinv
  have hp : canvasToFrame { s with canvas := unpack ⟨w0, w1, w2⟩ } = ⟨w0, w1, w2⟩ := by
    rw [canvasToFrame_load hinv hrot, rotated_deg0, pack_unpack]
  exact ⟨_, _, rfl, exec_canvasToFrame_of_frame hp, rfl, rfl⟩

/-- Settles O46: the second pass turns the frame that the first one turned. -/
theorem halfTurnTwiceIsIdentity : Obligations.HalfTurnTwiceIsIdentity := by
  intro s w0 w1 w2 hrot hinv
  have hfirst := canvasToFrame_load hinv hrot ⟨w0, w1, w2⟩
  refine ⟨_, _, _, _, _, _, _, rfl, exec_canvasToFrame_of_frame hfirst, rfl, rfl,
    exec_canvasToFrame_of_frame (p := ⟨w0, w1, w2⟩) ?_, rfl⟩
  calc
    _ = pack (rotated s.params .deg180
          (unpack (pack (rotated s.params .deg180 (unpack ⟨w0, w1, w2⟩))))) :=
        canvasToFrame_load hinv hrot _
    _ = ⟨w0, w1, w2⟩ := by rw [unpack_pack, rotated_deg180_twice, pack_unpack]

end Sys2Proof.Claims
end

section
/-! PROOFS. The statements of 43_ledgrid.md: the commands that name a cell, the blink scheduler, and
the show step. -/

namespace Sys2Proof.Machine

open Sys2Proof.Claims (names at_ num)

/-! ## The cell a command names (30_encoding.md R87; 43_ledgrid.md R200) -/

theorem cellOf_of_names {cell : CellAddr} {i : Cell} (h : names cell i) : cellOf cell = some i := by
  cases cell with
  | xy x y =>
    obtain ⟨hx, hy, hi⟩ := h
    rw [cellOf, gridCell_in ⟨hx, hy⟩]
    exact congrArg some (Fin.ext hi.symm)
  | linear n =>
    obtain ⟨hn, hi⟩ := h
    rw [cellOf, linearCell_in hn]
    exact congrArg some (Fin.ext hi.symm)

theorem cellOf_eq_none {cell : CellAddr} (h : ¬ ∃ i, names cell i) : cellOf cell = none := by
  cases cell with
  | xy x y => exact gridCell_out fun hxy => h ⟨⟨12 * y + x, by omega⟩, hxy.1, hxy.2, rfl⟩
  | linear n => exact linearCell_out fun hn => h ⟨⟨n, by omega⟩, hn, rfl⟩

/-! ## What each command does to the cell it names (43_ledgrid.md R203 to R206, R209) -/

section NamedCell

variable {cell : CellAddr} {i : Cell}

theorem exec_ledSet_of_names (h : names cell i) (v : Bool) (s : State) :
    exec (.ledSet cell v) s = .next ((s.setInterval i 0#32).ledWrite i v).show := by
  simp only [exec, execLedSet, cellOf_of_names h]

theorem exec_ledToggle_of_names (h : names cell i) (s : State) : exec (.ledToggle cell) s =
    .next ((s.setInterval i 0#32).ledWrite i (!s.led.getLsbD i.val)).show := by
  simp only [exec, execLedToggle, cellOf_of_names h]

theorem exec_ledBlink_of_names (h : names cell i) {rate : Word} (hrate : rate ≠ 0#32) (s : State) :
    exec (.ledBlink cell rate) s =
      .next (((s.setInterval i rate).setLastToggle i s.inp.now).ledWrite i true).show := by
  simp only [exec, execLedBlink, cellOf_of_names h, if_neg hrate]

theorem exec_ledBlink_zero_of_names (h : names cell i) (s : State) :
    exec (.ledBlink cell 0#32) s = .next (s.setInterval i 0#32) := by
  simp only [exec, execLedBlink, cellOf_of_names h, if_true]

theorem exec_ledNoblink_of_names (h : names cell i) (s : State) :
    exec (.ledNoblink cell) s = .next (s.setInterval i 0#32) := by
  simp only [exec, execLedNoblink, cellOf_of_names h]

theorem exec_ledGet_of_names (h : names cell i) (s : State) :
    exec (.ledGet cell) s = .next (s.respond ⟨ledGetWord s i, 0#32, 0#32, 0#32⟩) := by
  simp only [exec, execLedGet, cellOf_of_names h]

end NamedCell

/-- RSP0 of LED_GET in numbers: each flag at its bit (30_encoding.md R84). -/
theorem ledGetWord_toNat (s : State) (i : Cell) : (ledGetWord s i).toNat =
    num (s.led.getLsbD i.val) + 2 + 4 * num (s.blinkInterval[i.val] != 0#32) := by
  have hblinking : decide (s.blinkInterval[i.val] ≠ 0#32) = (s.blinkInterval[i.val] != 0#32) := by
    simp [bne, Bool.beq_eq_decide_eq]
  have hone : num true = 1 := rfl
  rw [ledGetWord, BitVec.toNat_setWidth_of_le (by omega), hblinking]
  simp only [toNat_append_eq_add, toNat_ofBool_eq_num, hone]
  omega

/-! ## The write step and then the show step (43_ledgrid.md R201, R202) -/

/-- Cell `j` after both. -/
theorem State.ledWrite_show_led (s : State) (i j : Cell) (v : Bool) :
    (s.ledWrite i v).show.led.getLsbD j.val = if j = i then v else s.led.getLsbD j.val := by
  simp only [State.show_led, State.ledWrite_led, Fin.ext_iff]

/-- The buffer is shown when the bit changed, or an un-shown change was there. -/
theorem State.ledWrite_show_sink (s : State) (i : Cell) (v : Bool) :
    (s.ledWrite i v).show.sink = if s.dirty = true ∨ s.led.getLsbD i.val ≠ v
      then s.sink ++ [pack (s.ledWrite i v).show.led] else s.sink := by
  simp only [State.show_sink, State.ledWrite_dirty, State.ledWrite_sink, State.show_led,
    Bool.or_eq_true, decide_eq_true_eq]

/-! ## The blink scheduler (43_ledgrid.md R207, R212) -/

/-- The model's test for a due cell says what the statements' does. -/
theorem State.blinkDue_iff (s : State) (j : Cell) : s.blinkDue j.val = true ↔ Claims.blinkDue s j :=
  s.blinkDue_cell j

section Update

variable {s : State} {j : Cell}

theorem State.toggleDue_of_due (h : Claims.blinkDue s j) :
    s.toggleDue.led.getLsbD j.val = (!s.led.getLsbD j.val) ∧
      s.toggleDue.lastToggle[j.val] = s.inp.now := by
  have hdue : s.blinkDue j.val = true := (s.blinkDue_iff j).mpr h
  rw [State.toggleDue_led_cell, State.toggleDue_lastToggle_cell, hdue]
  exact ⟨Bool.xor_true _, if_pos rfl⟩

theorem State.toggleDue_of_not_due (h : ¬ Claims.blinkDue s j) :
    s.toggleDue.led.getLsbD j.val = s.led.getLsbD j.val ∧
      s.toggleDue.lastToggle[j.val] = s.lastToggle[j.val] := by
  have hdue : s.blinkDue j.val = false := Bool.eq_false_iff.mpr fun hb => h ((s.blinkDue_iff j).mp hb)
  rw [State.toggleDue_led_cell, State.toggleDue_lastToggle_cell, hdue]
  exact ⟨Bool.xor_false _, if_neg Bool.false_ne_true⟩

end Update

/-- An un-shown change was there, or some cell toggled. -/
theorem State.toggleDue_dirty_iff (s : State) :
    s.toggleDue.dirty = true ↔ s.dirty = true ∨ ∃ j, Claims.blinkDue s j := by
  simp only [State.toggleDue_dirty, Bool.or_eq_true, decide_eq_true_eq, State.dueCells_ne_zero,
    State.blinkDue_iff]

/-- When the loop has processed all cells, it has done what the closed form does. -/
theorem BlinkedTo.eq_toggleDue {s t : State} (h : BlinkedTo s t 96) : t = s.toggleDue := by
  have hled : t.led = s.toggleDue.led := frame_ext _ _ fun j => by
    rw [h.led, if_pos j.isLt, State.toggleDue_led_cell]
  have hlast : t.lastToggle = s.toggleDue.lastToggle := cells_ext _ _ fun j => by
    simp only [h.lt, j.isLt, true_and, State.toggleDue_lastToggle_cell]
  have hdirty : t.dirty = s.toggleDue.dirty := Bool.eq_iff_iff.mpr <| by
    simp only [h.dirty, State.toggleDue_dirty_iff, State.blinkDue_iff, Fin.isLt, true_and]
  calc
    t = { s with led := t.led, lastToggle := t.lastToggle, dirty := t.dirty } := h.fr
    _ = s.toggleDue := by
      rw [hled, hlast, hdirty]
      rfl

theorem State.blinkLoop_eq (s : State) : s.blinkLoop = s.toggleDue := by
  have hall : (List.finRange 96).take 96 = List.finRange 96 :=
    List.take_of_length_le List.length_finRange.le
  have hloop := s.blinkCell_fold 96 le_rfl
  rw [hall] at hloop
  exact hloop.eq_toggleDue

/-- Cell `i` blinks with interval `r`, and shows `v` since its toggle at `T`. -/
structure State.Blinking (s : State) (i : Cell) (r T : Word) (v : Bool) : Prop where
  interval : s.blinkInterval[i.val] = r
  lastToggle : s.lastToggle[i.val] = T
  led : s.led.getLsbD i.val = v

/-- LED_BLINK starts the blink ON at NOW. -/
theorem State.blinking_started (s : State) (i : Cell) (r : Word) :
    (((s.setInterval i r).setLastToggle i s.inp.now).ledWrite i true).show.Blinking
      i r s.inp.now true where
  interval := by
    simp only [State.show_blinkInterval, State.ledWrite_blinkInterval,
      State.setLastToggle_blinkInterval, State.setInterval_get, if_true]
  lastToggle := by
    simp only [State.show_lastToggle, State.ledWrite_lastToggle, State.setLastToggle_get, if_true]
  led := by rw [State.ledWrite_show_led, if_pos rfl]

/-- One interval after its toggle, modulo 2^32, the cell is due (00_scope.md R12, R13). -/
theorem State.Blinking.due {s : State} {i : Cell} {r T : Word} {v : Bool} (h : s.Blinking i r T v)
    (hr : r ≠ 0#32) : Claims.blinkDue (at_ (T + r) s) i := by
  have helapsed : T + r - s.lastToggle[i.val] = r := by rw [h.lastToggle, add_sub_cancel_left]
  have hpassed : s.blinkInterval[i.val] ≤ T + r - s.lastToggle[i.val] := by
    rw [h.interval, helapsed]
    exact BitVec.le_refl r
  exact ⟨fun hzero => hr (h.interval.symm.trans hzero), hpassed⟩

/-- LED_UPDATE_BLINKS one interval after the toggle toggles the cell again. -/
theorem State.Blinking.update {s : State} {i : Cell} {r T : Word} {v : Bool} (h : s.Blinking i r T v)
    (hr : r ≠ 0#32) : (at_ (T + r) s).toggleDue.show.Blinking i r (T + r) !v := by
  obtain ⟨hled, hlast⟩ := State.toggleDue_of_due (h.due hr)
  refine ⟨?_, ?_, ?_⟩
  · simp only [State.show_blinkInterval, State.toggleDue_blinkInterval]
    exact h.interval
  · simp only [State.show_lastToggle]
    exact hlast
  · rw [State.show_led, hled, ← h.led]
    rfl

end Sys2Proof.Machine

namespace Sys2Proof.Claims

open Sys2Proof.Machine

/-- Settles O48: the command is the cleared interval, the write step and the show step. -/
theorem ledSetWritesTheCell : Obligations.LedSetWritesTheCell := by
  intro s cell i v hcell
  have he := exec_ledSet_of_names hcell v s
  refine ⟨_, he, fun j => State.ledWrite_show_led _ i j v, fun j => ?_,
    State.ledWrite_show_sink _ i v, ?_⟩
  · simp only [State.show_blinkInterval, State.ledWrite_blinkInterval, State.setInterval_get]
  · simpa only [WritesOnly, State.show_dirty] using exec_writesOnly he

/-- Settles O49: the write step writes the complement, so the bit always changes and the show step
writes the sink. -/
theorem ledToggleComplementsTheCell : Obligations.LedToggleComplementsTheCell := by
  intro s cell i hcell
  have he := exec_ledToggle_of_names hcell s
  have hchanged : s.led.getLsbD i.val ≠ !s.led.getLsbD i.val := (Bool.not_ne_self _).symm
  refine ⟨_, he, fun j => State.ledWrite_show_led _ i j _, fun j => ?_,
    (State.ledWrite_show_sink _ i _).trans (if_pos (.inr hchanged)), ?_⟩
  · simp only [State.show_blinkInterval, State.ledWrite_blinkInterval, State.setInterval_get]
  · simpa only [WritesOnly, State.show_dirty] using exec_writesOnly he

/-- Settles O50: with a rate the command writes the interval and the timestamp, then the write step
and the show step follow; with rate 0 it is LED_NOBLINK, which writes the interval only. -/
theorem ledBlinkAndNoblink : Obligations.LedBlinkAndNoblink := by
  intro s cell i hcell
  refine ⟨fun rate hrate => ?_, _, exec_ledNoblink_of_names hcell s,
    exec_ledBlink_zero_of_names hcell s, fun j => s.setInterval_get i j 0#32, rfl⟩
  have he := exec_ledBlink_of_names hcell hrate s
  refine ⟨_, he, fun j => State.ledWrite_show_led _ i j true, fun j => ?_, fun j => ?_, ?_, ?_⟩
  · simp only [State.show_blinkInterval, State.ledWrite_blinkInterval,
      State.setLastToggle_blinkInterval, State.setInterval_get]
  · simp only [State.show_lastToggle, State.ledWrite_lastToggle, State.setLastToggle_get,
      State.setInterval_lastToggle]
  · have hsink := ((s.setInterval i rate).setLastToggle i s.inp.now).ledWrite_show_sink i true
    simpa only [State.setLastToggle_dirty, State.setInterval_dirty, State.setLastToggle_led,
      State.setInterval_led, State.setLastToggle_sink, State.setInterval_sink, ne_eq,
      Bool.not_eq_true] using hsink
  · simpa only [WritesOnly, State.show_dirty] using exec_writesOnly he

/-- Settles O51: such an address selects no cell. -/
theorem ledCommandsIgnoreCellsOutOfRange : Obligations.LedCommandsIgnoreCellsOutOfRange := by
  intro s cell h
  have hnone := cellOf_eq_none h
  simp only [exec, execLedSet, execLedToggle, execLedBlink, execLedNoblink, execLedGet, hnone,
    State.respond, implies_true, and_self]

/-- Settles O52: each cell by whether it is due; the sink is written when the grid is then dirty. -/
theorem updateBlinksTogglesTheDueCells : Obligations.UpdateBlinksTogglesTheDueCells := by
  intro s
  have he : exec .ledUpdateBlinks s = .next s.toggleDue.show := rfl
  have hsink := s.toggleDue.show_sink
  refine ⟨_, he, fun j hdue => ?_, fun j hdue => ?_, fun hdirty => ?_, fun hclean hnone => ?_, ?_⟩
  · simpa only [State.show_led, State.show_lastToggle] using State.toggleDue_of_due hdue
  · simpa only [State.show_led, State.show_lastToggle] using State.toggleDue_of_not_due hdue
  · rw [hsink, if_pos (s.toggleDue_dirty_iff.mpr hdirty), State.show_led, State.toggleDue_sink]
  · have hdirty : ¬ s.toggleDue.dirty = true := by
      simp only [State.toggleDue_dirty_iff, hclean, hnone, Bool.false_eq_true, exists_false,
        or_self, not_false_eq_true]
    rw [hsink, if_neg hdirty, State.toggleDue_sink]
  · simpa only [WritesOnly, State.show_dirty] using exec_writesOnly he

/-- Settles O53: the loop over all cells ends in the closed form's state. -/
theorem updateBlinksIsTheSpecsLoop : Obligations.UpdateBlinksIsTheSpecsLoop := by
  intro s
  rw [State.blinkLoop_eq]
  rfl

/-- Settles O54: the cell blinks from ON at `T`, and each update finds it one interval after its last
toggle. -/
theorem blinkTogglesTwiceInTwoIntervals : Obligations.BlinkTogglesTwiceInTwoIntervals := by
  intro s cell i T r hcell hr
  have hon := (at_ T s).blinking_started i r
  have hoff := hon.update hr
  have honAgain := hoff.update hr
  exact ⟨_, _, _, exec_ledBlink_of_names hcell hr _, rfl, rfl, hon.led, hoff.led, honAgain.led⟩

/-- Settles O56: the response word is its flags' number. -/
theorem ledGetAnswersTheCell : Obligations.LedGetAnswersTheCell := by
  intro s cell i hcell
  rw [exec_ledGet_of_names hcell, ← ledGetWord_toNat, BitVec.ofNat_toNat, BitVec.setWidth_eq]
  rfl

/-- Settles O55: the command is the show step. -/
theorem ledShowWritesWhenDirty : Obligations.LedShowWritesWhenDirty := fun s =>
  ⟨s.show, rfl, s.show_sink, s.show_eq⟩

end Sys2Proof.Claims
end

section
/-! PROOFS. The statements of 44_system.md: NOP (with CANVAS_BEGIN of 42_canvas.md), and the
registers that read 0. -/

namespace Sys2Proof.Machine

open Sys2Proof.Claims (mappedRegisters reads)

/-! ## What reads 0 (44_system.md R233) -/

/-- READ_REG of a register whose value is 0. -/
theorem reads_zero {s : State} {ly reg : Nat} {index : Word} (h : regValue s ly reg index = 0#32) :
    reads s ly reg index 0 :=
  reads_of_toNat (congrArg BitVec.toNat h)

/-- TRK_TIMING beyond the live entries. -/
theorem trkTiming_of_count_le {L : Nat} {t : Track} {index : Word}
    (h : t.count.toNat ≤ index.toNat % 2 ^ 16) : trkTiming L t index = 0#32 := by
  simp only [trkTiming, BitVec.extractLsb'_toNat, Nat.shiftRight_zero, if_neg (Nat.not_lt.mpr h)]

/-- A per-cell array register beyond the grid. -/
theorem cellRegister_of_le (v : Vector Word 96) {index : Word} (h : 96 ≤ index.toNat % 2 ^ 8) :
    cellRegister v index = 0#32 := by
  rw [cellRegister, BitVec.extractLsb'_toNat, Nat.shiftRight_zero]
  exact List.getD_eq_default _ _ (by simpa using h)

/-- Each arm of the map but the last is at a mapped number, and the last answers 0. -/
theorem regValue_of_unmapped {reg : Nat} (h : reg ∉ mappedRegisters) (s : State) (ly : Nat)
    (index : Word) : regValue s ly reg index = 0#32 := by
  unfold regValue
  split
  case h_23 => rfl
  all_goals exact absurd (by decide) h

end Sys2Proof.Machine

namespace Sys2Proof.Claims

open Sys2Proof.Machine

/-- Settles O47: both commands answer the state they got. -/
theorem nopAndCanvasBeginChangeNothing : Obligations.NopAndCanvasBeginChangeNothing :=
  fun _ => ⟨rfl, rfl⟩

/-- Settles O59: an absent layer, an index out of range and an unmapped number each make the value of
the register map 0. -/
theorem readRegOutOfRangeReadsZero : Obligations.ReadRegOutOfRangeReadsZero := fun s ly index =>
  ⟨fun habsent _ hreg => reads_zero (regValue_absent habsent hreg index),
    fun _ htr hindex =>
      reads_layerRegister _ rfl htr (congrArg BitVec.toNat (trkTiming_of_count_le hindex)),
    fun hindex => ⟨reads_zero (cellRegister_of_le s.blinkInterval hindex),
      reads_zero (cellRegister_of_le s.lastToggle hindex)⟩,
    fun _ hunmapped => reads_zero (regValue_of_unmapped hunmapped s ly index)⟩

end Sys2Proof.Claims
end

section
/-! PROOFS. The statement of 60_exceptions.md: the model fault of a START. -/

namespace Sys2Proof.Machine

/-- A START on an existing layer that passes its checks stops with the fault of its timing copy. -/
theorem execStart_fault {s : State} {ly md pr base count sf ef} {f : Fault}
    (hpresent : ly < s.layers) (hpasses : ¬ startFails s.params.maxFrames pr count = true)
    (hcopy : s.copyTimings base 0 count.toNat = .error f) :
    execStart ly md pr base count sf ef s = .fault f := by
  simp only [execStart, if_neg (Nat.not_le.mpr hpresent), if_neg hpasses, hcopy]

/-- A START that names the reference, at least one frame and no more than MAX_FRAMES passes its checks
(40_track.md R111). -/
theorem not_startFails {maxFrames : Nat} {count : Half} (hpositive : 0 < count.toNat)
    (hcapacity : count.toNat ≤ maxFrames) : ¬ startFails maxFrames true count = true := by
  rw [startFails_iff]
  rintro (hreference | hzero | hover)
  · cases hreference
  · exact absurd hpositive (by simp [hzero])
  · exact absurd hcapacity (Nat.not_le.mpr hover)

end Sys2Proof.Machine

namespace Sys2Proof.Claims

open Sys2Proof.Machine

/-- Settles O19: START ends in the fault of its timing copy, which is that of the first unreadable
duration word. -/
theorem startFaultsOnFirstUnreadableDuration : Obligations.StartFaultsOnFirstUnreadableDuration := by
  intro s ly md base count sf ef k hpresent hcapacity hk hbefore hunreadable
  have hcopy : s.copyTimings base 0 count.toNat =
      .error (.animReadOutsideWindow (rowWord base k 3)) := by
    have hfirst := State.copyTimings_fault (s := s) (base := base) (k := 0) hk
    simp only [Nat.zero_add] at hfirst
    exact hfirst hbefore hunreadable
  exact execStart_fault hpresent (not_startFails (Nat.zero_lt_of_lt hk) hcapacity) hcopy

end Sys2Proof.Claims
end

section
/-! PROOFS. The statement of 70_reset_and_hazards.md: the reset input. -/

namespace Sys2Proof.Machine

/-- The reset input resets the block and nothing else happens in that step (70_reset_and_hazards.md
R270). -/
theorem step_of_reset {s : State} {rest : List HostEvent} (h : s.pending = .reset :: rest) :
    step s = .next (s.taken rest).blockReset := by
  simp only [step, h]

/-- Outside the block state, a step that takes the reset input changes the queue only. -/
theorem State.taken_blockReset_frame (s : State) (rest : List HostEvent) :
    (s.taken rest).blockReset =
      { (s.taken rest).blockReset with
        params := s.params, mem := s.mem, inp := s.inp, pending := rest, sink := s.sink,
        responses := s.responses, accepted := s.accepted } := rfl

end Sys2Proof.Machine

namespace Sys2Proof.Claims

open Sys2Proof.Machine

/-- Settles O9: the step answers the reset block, which is at the reset values, has the layers it had,
and keeps what is not block state. -/
theorem resetInputResetsTheBlock : Obligations.ResetInputResetsTheBlock := by
  intro s rest hpending
  have hlayers : (s.taken rest).blockReset.layers = s.layers := State.blockReset_layers (s.taken rest)
  exact ⟨_, step_of_reset hpending, State.blockReset_atReset _, hlayers,
    s.taken_blockReset_frame rest⟩

end Sys2Proof.Claims
end
